-- ==== Sys2Proof/Word.lean ====
section
/-! DEFINITION. The words of the core: lane, byte and command word (00_scope.md R6, R7; 30_encoding.md R70).
All values are unsigned bit vectors; bit 0 is the least significant bit. -/

namespace Sys2Proof

/-- A byte: 8 bits (R6). -/
abbrev Byte := BitVec 8

/-- A lane: a 64-bit unsigned value (R6). -/
abbrev Lane := BitVec 64

/-- A command word, `cmd[71:0]` (R70). -/
abbrev CmdWord := BitVec 72

end Sys2Proof
end

