-- ==== Sys2Proof/Config.lean ====
section
/-! DEFINITION. The fixed parameters of this hardware (00_scope.md R5). The source leaves none of them open:
the core has no free value and no configuration surface. -/

namespace Sys2Proof.Config

/-- NLANES: 25 lanes of 64 bits. -/
abbrev nLanes : Nat := 25

/-- NROUNDS: the rounds of one permutation. -/
abbrev nRounds : Nat := 24

/-- RATE_BYTES: the bytes of one block. -/
abbrev rateBytes : Nat := 136

/-- RATE_LANES: the lanes a block is XORed into; lanes 17..24 are the capacity. -/
abbrev rateLanes : Nat := 17

/-- DIGEST_BYTES: the bytes of the digest, lanes 0..3. -/
abbrev digestBytes : Nat := 32

/-- PAD_FIRST: the domain byte of original Keccak, XORed in after the tail. -/
abbrev padFirst : Byte := 0x01#8

/-- PAD_LAST: XORed into byte 135 of the padded block. -/
abbrev padLast : Byte := 0x80#8

/-- BEAT_MAX: the most bytes one ABSORB carries. -/
abbrev beatMax : Nat := 8

@[simp] theorem nLanes_eq : nLanes = 25 := rfl
@[simp] theorem nRounds_eq : nRounds = 24 := rfl
@[simp] theorem rateBytes_eq : rateBytes = 136 := rfl
@[simp] theorem rateLanes_eq : rateLanes = 17 := rfl
@[simp] theorem digestBytes_eq : digestBytes = 32 := rfl
@[simp] theorem padFirst_eq : padFirst = 0x01#8 := rfl
@[simp] theorem padLast_eq : padLast = 0x80#8 := rfl
@[simp] theorem beatMax_eq : beatMax = 8 := rfl

end Sys2Proof.Config
end

