-- ==== Sys2Proof/Syntax.lean ====
section
/-! DEFINITION. The commands of the core, one constructor per row of spec/opcode_table.json
(30_encoding.md R71). -/

namespace Sys2Proof

/-- A command with the operands its encoding makes significant; the ignored bits of R74 are gone. -/
inductive Instr where
  /-- NOP, op 0x0 (R146). -/
  | nop
  /-- INIT, op 0x1 (R147). -/
  | init
  /-- ABSORB, op 0x2: `len` is cmd[67:64], of which 1..8 are legal; `data` is cmd[63:0] (R148, R72, R73). -/
  | absorb (len : BitVec 4) (data : BitVec 64)
  /-- FINAL, op 0x3 (R149). -/
  | final
  /-- RESERVED (op 0x4-0x7): `sub` is cmd[69:68] (R150). -/
  | reservedLow (sub : BitVec 2)
  /-- RESERVED (op 0x8-0xF): `sub` is cmd[70:68] (R150). -/
  | reservedHigh (sub : BitVec 3)
  deriving DecidableEq, Repr

end Sys2Proof
end

