-- ==== Sys2Proof/WellFormed.lean ====
section
/-! DEFINITION. Which commands as syntax are the reading of some command word: the significant operand bits
and no others (30_encoding.md R73, R74). An ABSORB with an illegal `len` is well-formed: it is a command that
is executed and raises BAD_LEN (R75). -/

namespace Sys2Proof

/-- `data` has no bit at or above `8 * len`: only its low `8·len` bits are significant (R73). -/
def dataFits (len : BitVec 4) (data : BitVec 64) : Bool :=
  decide (data.toNat < 2 ^ (8 * len.toNat))

/-- The command holds significant bits only. -/
def Instr.wellFormed : Instr → Bool
  | .nop => true
  | .init => true
  | .absorb len data => dataFits len data
  | .final => true
  | .reservedLow _ => true
  | .reservedHigh _ => true

/-- The beat length is one of the legal values 1..8 (R72). -/
def legalLen (len : BitVec 4) : Bool :=
  decide (1 ≤ len.toNat ∧ len.toNat ≤ Config.beatMax)

end Sys2Proof
end

