-- ==== Sys2Proof/Decode.lean ====
section
/-! DEFINITION. Decoding of command words (30_encoding.md R70 to R76), the encoder, and the opcode table.
Every 72-bit word is a command (R71); only a string of bytes that is not 72 bits long is rejected (R76). -/

namespace Sys2Proof

/-- The op field, `cmd[71:68]` (R70). -/
def opField (w : CmdWord) : BitVec 4 := w.extractLsb' 68 4

/-- The len field, `cmd[67:64]` (R70, R72). -/
def lenField (w : CmdWord) : BitVec 4 := w.extractLsb' 64 4

/-- The data field, `cmd[63:0]` (R70, R73). -/
def dataField (w : CmdWord) : BitVec 64 := w.extractLsb' 0 64

/-- The low `8·len` bits of `data`, the others cleared: the significant ones (R73, R74). -/
def significantData (len : BitVec 4) (data : BitVec 64) : BitVec 64 :=
  data &&& BitVec.ofNat 64 (2 ^ (8 * len.toNat) - 1)

/-- The command a word stands for: its op field selects it (R71), its ignored bits are dropped (R74). -/
def decode (w : CmdWord) : Instr :=
  match (opField w).toNat with
  | 0 => .nop
  | 1 => .init
  | 2 => .absorb (lenField w) (significantData (lenField w) (dataField w))
  | 3 => .final
  | 4 | 5 | 6 | 7 => .reservedLow (w.extractLsb' 68 2)
  | _ => .reservedHigh (w.extractLsb' 68 3)

/-- A word from its three fields (R70). -/
def packFields (op len : BitVec 4) (data : BitVec 64) : CmdWord := (op ++ len) ++ data

/-- The word an assembler emits for a command: every ignored bit zero (R70, R71, R74). -/
def encode : Instr → CmdWord
  | .nop => packFields 0x0#4 0#4 0#64
  | .init => packFields 0x1#4 0#4 0#64
  | .absorb len data => packFields 0x2#4 len data
  | .final => packFields 0x3#4 0#4 0#64
  | .reservedLow sub => packFields (0b01#2 ++ sub) 0#4 0#64
  | .reservedHigh sub => packFields (0b1#1 ++ sub) 0#4 0#64

/-- A word with its ignored bits cleared: all of `cmd[67:0]` outside ABSORB, `data[63:8·len]` in it (R74). -/
def clearIgnored (w : CmdWord) : CmdWord :=
  if opField w = 0x2#4 then
    packFields (opField w) (lenField w) (significantData (lenField w) (dataField w))
  else packFields (opField w) 0#4 0#64

/-- One row of spec/opcode_table.json. -/
structure OpcodeRow where
  mnemonic : String
  pattern : CmdWord
  mask : CmdWord
  deriving DecidableEq, Repr

/-- The opcode table, row by row as spec/opcode_table.json gives it (R71). -/
def opcodeTable : List OpcodeRow :=
  [ ⟨"NOP", 0x000000000000000000#72, 0xF00000000000000000#72⟩,
    ⟨"INIT", 0x100000000000000000#72, 0xF00000000000000000#72⟩,
    ⟨"ABSORB", 0x200000000000000000#72, 0xF00000000000000000#72⟩,
    ⟨"FINAL", 0x300000000000000000#72, 0xF00000000000000000#72⟩,
    ⟨"RESERVED__op_0x4-0x7", 0x400000000000000000#72, 0xC00000000000000000#72⟩,
    ⟨"RESERVED__op_0x8-0xF", 0x800000000000000000#72, 0x800000000000000000#72⟩ ]

/-- The word matches the row: it has the row's pattern under the row's mask. -/
def OpcodeRow.covers (r : OpcodeRow) (w : CmdWord) : Bool := decide (w &&& r.mask = r.pattern)

/-- The mnemonic of a command's row in the opcode table. -/
def Instr.mnemonic : Instr → String
  | .nop => "NOP"
  | .init => "INIT"
  | .absorb _ _ => "ABSORB"
  | .final => "FINAL"
  | .reservedLow _ => "RESERVED__op_0x4-0x7"
  | .reservedHigh _ => "RESERVED__op_0x8-0xF"

/-- Why a string of bytes is no command. -/
inductive Rejection where
  /-- Every command is exactly 72 bits, 9 bytes (R76). -/
  | notNineBytes (n : Nat)
  deriving DecidableEq, Repr

/-- Bytes to a word, the first byte at bits 7:0. The core stores no command, so this order is the opcode
table's own numbering of bits (DESIGN CHOICE, log entry 7). -/
def wordOfBytes (bs : List Byte) : CmdWord :=
  bs.foldr (fun b acc => (acc <<< 8) ||| b.setWidth 72) 0

/-- Decoding of any string of bytes: a command, or a rejection by name. -/
def decodeBytes (bs : List Byte) : Except Rejection Instr :=
  if bs.length = 9 then .ok (decode (wordOfBytes bs)) else .error (.notNineBytes bs.length)

/-- The low `nbits` bits of `w` as at least 9 bytes, the first one bits 7:0; bits from `nbits` up are zero. -/
def layOut (nbits w : Nat) : List Byte :=
  (List.range (max 9 ((nbits + 7) / 8))).map fun k => BitVec.ofNat 8 (w % 2 ^ nbits / 256 ^ k)

/-- The command the decoder reads from a word numbered as the opcode table numbers it. -/
def decodeTableWord (nbits w : Nat) : Option Instr :=
  match decodeBytes (layOut nbits w) with
  | .ok i => some i
  | .error _ => none

end Sys2Proof
end

