-- ==== Sys2Proof/Machine/State.lean ====
section
/-! DEFINITION. The state of the core (10_state.md), as plain data, and its value after a reset edge (R35). -/

namespace Sys2Proof.Machine

/-- The state register S as 25 lanes; lane `(x, y)` is at index `x + 5 * y` (R21, R22). -/
abbrev Lanes := Vector Lane 25

/-- A block of 136 bytes: the rate buffer's contents, or the padded block (R23, glossary). -/
abbrev Block := Vector Byte 136

/-- PHASE, the controller phase (R26). Values 5..7 are unreachable and left out (I4). -/
inductive Phase where
  /-- ABS = 0: absorbing. -/
  | abs
  /-- PERM_BLK = 1: permuting after a full block. -/
  | permBlk
  /-- PERM_FIN = 2: permuting after the padded last block. -/
  | permFin
  /-- DONE = 3: digest valid. -/
  | done
  /-- ERR = 4: error latched. -/
  | err
  deriving DecidableEq, Repr

/-- ERRC, the latched error code (R27, R181). Values 5..7 are never written and left out (I6). -/
inductive ErrorCode where
  /-- NONE = 0. -/
  | none
  /-- ILLEGAL_OP = 1. -/
  | illegalOp
  /-- BAD_LEN = 2. -/
  | badLen
  /-- OVERFLOW = 3. -/
  | overflow
  /-- SEQUENCE = 4. -/
  | sequence
  deriving DecidableEq, Repr

/-- What the host drives on the input ports at one clock edge (R33). -/
structure PortInput where
  rst : Bool
  cmdValid : Bool
  cmd : CmdWord
  deriving DecidableEq, Repr

/-- Why the machine stops. -/
inductive Fault where
  /-- Raised by a clock edge without `rst`, and by a host's read of an output, before the first reset edge:
  the registers hold unspecified values there (R202; 93_implementation_defined.md I3 says a model faults).
  Safe: the model stops where the hardware goes on with values nobody states. -/
  | registersUnspecified
  deriving DecidableEq, Repr

/-- Why an instruction has no meaning. -/
inductive Refusal where
  /-- Raised by an arm of `exec` whose instruction has no meaning yet. Safe. No arm raises it. -/
  | notModelled (mnemonic : String)
  deriving DecidableEq, Repr

/-- The state of the core, and two fields of the model's own (`launched`, `inputs`). -/
structure State where
  /-- The state register (R21). -/
  S : Lanes
  /-- The rate buffer (R23). -/
  BUF : Block
  /-- The number of message bytes in BUF, 8 bits (R24). -/
  COUNT : BitVec 8
  /-- The round counter, of which only 0..23 exist for a model (R25, R115). -/
  RND : Fin 24
  /-- The controller phase (R26). -/
  PHASE : Phase
  /-- The latched error code (R27). -/
  ERRC : ErrorCode
  /-- Whether a reset edge has occurred since power-up (R202, R203; the model's own, log entry 5). -/
  launched : Bool
  /-- What the host drives at the coming clock edges, the next edge first (R33; the model's own, log entry 4). -/
  inputs : List PortInput
  deriving DecidableEq, Repr

/-- 25 lanes of zero. -/
def zeroLanes : Lanes := Vector.replicate 25 0#64

/-- 136 bytes of zero. -/
def zeroBlock : Block := Vector.replicate 136 0#8

/-- The state after a reset edge (R35, R200), with nothing driven on the ports. -/
def State.reset : State where
  S := zeroLanes
  BUF := zeroBlock
  COUNT := 0#8
  RND := 0
  PHASE := .abs
  ERRC := .none
  launched := true
  inputs := []

end Sys2Proof.Machine
end

