-- ==== Sys2Proof/Machine/Operands.lean ====
section
/-! DEFINITION. Byte order and operand forms (20_memory.md R51 to R56): packing of bytes into lanes, the byte
view of the state, the bytes of a beat, and where a beat lands in the block. -/

namespace Sys2Proof.Machine

/-- `LE64(b0, ..., b7)`: b0 at bits 7:0, b7 at bits 63:56 (R52). -/
def le64 (bs : Vector Byte 8) : Lane :=
  bs[7] ++ bs[6] ++ bs[5] ++ bs[4] ++ bs[3] ++ bs[2] ++ bs[1] ++ bs[0]

/-- `BYTES(L) = (L[7:0], L[15:8], ..., L[63:56])`, the inverse packing (R52). -/
def bytesOfLane (L : Lane) : Vector Byte 8 :=
  Vector.ofFn fun j => L.extractLsb' (8 * j.val) 8

/-- Block lane w: `LE64(blk[8w], ..., blk[8w+7])` (R52). -/
def blockLane (blk : Block) (w : Fin 17) : Lane :=
  le64 (Vector.ofFn fun j => blk[8 * w.val + j.val])

/-- State byte k, k = 0..199 (R51). -/
def stateByte (S : Lanes) (k : Fin 200) : Byte :=
  S[k.val / 8].extractLsb' (8 * (k.val % 8)) 8

/-- Beat byte k: `data[8k+7:8k]` (R53). -/
def beatByte (data : BitVec 64) (k : Nat) : Byte :=
  data.extractLsb' (8 * k) 8

/-- The bytes of a beat of `len` bytes, the first message byte first (R53). -/
def beatBytes (len : BitVec 4) (data : BitVec 64) : List Byte :=
  (List.range len.toNat).map (beatByte data)

/-- `nb` of R148: the buffer with the beat's bytes written at positions COUNT, ..., COUNT + len - 1. -/
def writeBeat (buf : Block) (count : Nat) (len : BitVec 4) (data : BitVec 64) : Block :=
  Vector.ofFn fun k =>
    if count ≤ k.val ∧ k.val < count + len.toNat then beatByte data (k.val - count) else buf[k]

/-- The beat would cross the block boundary: `COUNT + len > 136` (R56). -/
def crossesBlock (count : BitVec 8) (len : BitVec 4) : Bool :=
  decide (count.toNat + len.toNat > Config.rateBytes)

/-- The beat completes the block: `COUNT + len = 136` (R56). -/
def fillsBlock (count : BitVec 8) (len : BitVec 4) : Bool :=
  decide (count.toNat + len.toNat = Config.rateBytes)

end Sys2Proof.Machine
end

