-- ==== Sys2Proof/Machine/Flags.lean ====
section
/-! DEFINITION. The outputs `cmd_ready`, `busy` and `status` as functions of the state (10_state.md R30, R31).
The core has no other flags (R36). -/

namespace Sys2Proof.Machine

/-- `busy`: PHASE is PERM_BLK or PERM_FIN (R30). -/
def Phase.busy : Phase → Bool
  | .permBlk => true
  | .permFin => true
  | .abs => false
  | .done => false
  | .err => false

/-- The code of an error in `status[6:4]` (R27, R181). -/
def ErrorCode.toBits : ErrorCode → BitVec 3
  | .none => 0#3
  | .illegalOp => 1#3
  | .badLen => 2#3
  | .overflow => 3#3
  | .sequence => 4#3

/-- The value of PHASE as its three bits (R26). -/
def Phase.toBits : Phase → BitVec 3
  | .abs => 0#3
  | .permBlk => 1#3
  | .permFin => 2#3
  | .done => 3#3
  | .err => 4#3

/-- The output `busy` (R30). -/
def State.busy (s : State) : Bool := s.PHASE.busy

/-- The output `cmd_ready` (R30). -/
def State.cmdReady (s : State) : Bool := !s.busy

/-- `status.DVALID`: the digest is valid (R31). -/
def State.dvalid (s : State) : Bool := decide (s.PHASE = .done)

/-- `status.ERR`: an error is latched (R31). -/
def State.errFlag (s : State) : Bool := decide (s.PHASE = .err)

/-- The output `status[15:0]`, from COUNT at the top down to READY at bit 0 (R31). -/
def State.status (s : State) : BitVec 16 :=
  s.COUNT ++ 0#1 ++ s.ERRC.toBits ++ BitVec.ofBool s.errFlag ++ BitVec.ofBool s.dvalid ++
    BitVec.ofBool s.busy ++ BitVec.ofBool s.cmdReady

end Sys2Proof.Machine
end

