-- ==== Sys2Proof/Machine/Permutation.lean ====
section
/-! DEFINITION. The Keccak-f[1600] permutation engine (40_permutation.md): tables, the steps, round and
permutation. Every step reads its whole input before it writes (R105, R108, R112, R209). -/

namespace Sys2Proof.Machine

/-- A rotation amount, 1..63. Amounts 0 and 64 are refused by type (R101, I1). -/
abbrev RotAmount := { n : Nat // 1 ≤ n ∧ n ≤ 63 }

/-- `rotl64(v, n)`, the 64-bit left rotation (R101). -/
def rotl64 (v : Lane) (n : RotAmount) : Lane := (v <<< n.val) ||| (v >>> (64 - n.val))

/-- RC, the round-constant ROM, addressed by RND (R102). UNVERIFIED: the spec supplies the values from
general knowledge (GK1, log entry 1). -/
def RC : Vector Lane 24 :=
  #v[0x0000000000000001#64, 0x0000000000008082#64, 0x800000000000808A#64, 0x8000000080008000#64,
     0x000000000000808B#64, 0x0000000080000001#64, 0x8000000080008081#64, 0x8000000000008009#64,
     0x000000000000008A#64, 0x0000000000000088#64, 0x0000000080008009#64, 0x000000008000000A#64,
     0x000000008000808B#64, 0x800000000000008B#64, 0x8000000000008089#64, 0x8000000000008003#64,
     0x8000000000008002#64, 0x8000000000000080#64, 0x000000000000800A#64, 0x800000008000000A#64,
     0x8000000080008081#64, 0x8000000000008080#64, 0x0000000080000001#64, 0x8000000080008008#64]

/-- One step of the LFSR of polynomial x^8 + x^6 + x^5 + x^4 + 1 that R102 names as evidence for RC. -/
def lfsrStep (v : BitVec 8) : BitVec 8 := (v <<< 1) ^^^ (if v.getLsbD 7 then 0x71#8 else 0#8)

/-- `rc(t)` of R102: the low bit of the LFSR after t steps from 1. -/
def lfsrBit (t : Nat) : Bool := (Nat.repeat lfsrStep t 1#8).getLsbD 0

/-- ROTC, the rotation of each rho-pi iteration (R103). UNVERIFIED: supplied by the spec from general
knowledge (GK3, log entry 2). -/
def ROTC : Vector RotAmount 24 :=
  #v[⟨1, by decide⟩, ⟨3, by decide⟩, ⟨6, by decide⟩, ⟨10, by decide⟩, ⟨15, by decide⟩, ⟨21, by decide⟩,
     ⟨28, by decide⟩, ⟨36, by decide⟩, ⟨45, by decide⟩, ⟨55, by decide⟩, ⟨2, by decide⟩, ⟨14, by decide⟩,
     ⟨27, by decide⟩, ⟨41, by decide⟩, ⟨56, by decide⟩, ⟨8, by decide⟩, ⟨25, by decide⟩, ⟨43, by decide⟩,
     ⟨62, by decide⟩, ⟨18, by decide⟩, ⟨39, by decide⟩, ⟨61, by decide⟩, ⟨20, by decide⟩, ⟨44, by decide⟩]

/-- PILN, the destination lane of each rho-pi iteration (R104). UNVERIFIED: supplied by the spec from general
knowledge (GK4, log entry 3). -/
def PILN : Vector (Fin 25) 24 :=
  #v[10, 7, 11, 17, 18, 3, 5, 16, 8, 21, 24, 4, 15, 23, 19, 13, 12, 2, 20, 14, 22, 9, 6, 1]

/-- `bc[x]`, the parity of column x (R105). -/
def columnParity (S : Lanes) (x : Fin 5) : Lane :=
  S[x.val] ^^^ S[x.val + 5] ^^^ S[x.val + 10] ^^^ S[x.val + 15] ^^^ S[x.val + 20]

/-- `d` of R105: what theta XORs into every lane of column x. -/
def thetaDelta (S : Lanes) (x : Fin 5) : Lane :=
  columnParity S (x + 4) ^^^ rotl64 (columnParity S (x + 1)) ⟨1, by decide⟩

/-- THETA (R105). -/
def theta (S : Lanes) : Lanes :=
  Vector.ofFn fun i => S[i] ^^^ thetaDelta S ⟨i.val % 5, Nat.mod_lt _ (by decide)⟩

/-- One iteration of the rho-pi loop, on the lanes and the carried temporary `t` (R106). -/
def rhoPiIteration (a : Lanes × Lane) (i : Fin 24) : Lanes × Lane :=
  (a.1.set PILN[i] (rotl64 a.2 ROTC[i]), a.1[PILN[i]])

/-- RHO-PI, the fused loop over i = 0..23 from the value of lane 1; the last `t` is discarded (R106). -/
def rhoPi (S : Lanes) : Lanes := ((List.finRange 24).foldl rhoPiIteration (S, S[1])).1

/-- `R[x][y]`, the offset table of the closed form, row x after row x (R107). The spec derives it from the loop; the pi
map is from general knowledge (GK5, log entry 3). -/
def rhoOffsets : Vector (Vector (Fin 64) 5) 5 :=
  #v[#v[0, 36, 3, 41, 18], #v[1, 44, 10, 45, 2], #v[62, 6, 43, 15, 61], #v[28, 55, 25, 21, 56],
     #v[27, 20, 39, 8, 14]]

/-- `rot(v, n)` of the closed form: the identity for n = 0, `rotl64` otherwise (R107, I1). -/
def rotOrKeep (v : Lane) (n : Fin 64) : Lane :=
  if h : n.val = 0 then v else rotl64 v ⟨n.val, by omega⟩

/-- The fixed wiring of the hardware, the one-step lane routing of R107, by destination lane: destination
`(y, (2x + 3y) mod 5)` takes lane `(x, y)`, so destination i takes y = i mod 5 and x = (3 (i div 5) + y) mod 5. -/
def rhoPiWiring (S : Lanes) : Lanes :=
  Vector.ofFn fun i =>
    let y : Fin 5 := ⟨i.val % 5, Nat.mod_lt _ (by decide)⟩
    let x : Fin 5 := ⟨(3 * (i.val / 5) + y.val) % 5, Nat.mod_lt _ (by decide)⟩
    rotOrKeep S[x.val + 5 * y.val] rhoOffsets[x.val][y.val]

/-- CHI (R108): lane x of a row takes `a[x] ^ (~a[x+1] & a[x+2])`, indices mod 5 within the row. -/
def chi (S : Lanes) : Lanes :=
  Vector.ofFn fun i =>
    S[i] ^^^ (~~~S[5 * (i.val / 5) + (i.val % 5 + 1) % 5] &&& S[5 * (i.val / 5) + (i.val % 5 + 2) % 5])

/-- IOTA (R109): the round constant into lane 0. -/
def iota (S : Lanes) (r : Fin 24) : Lanes := S.set 0 (S[0] ^^^ RC[r])

/-- ROUND (R110). Irreducible, so that a comparison of two states does not unfold the datapath. -/
@[irreducible] def round (S : Lanes) (r : Fin 24) : Lanes := iota (chi (rhoPi (theta S))) r

/-- KECCAK-F: rounds 0, 1, ..., 23 in that order, unconditionally (R111, R100). -/
def keccakF (S : Lanes) : Lanes := (List.finRange 24).foldl round S

/-- What is left of a permutation whose next round is `r`: rounds r, ..., 23 (R113, R114). -/
def roundsFrom (r : Nat) (S : Lanes) : Lanes := ((List.finRange 24).drop r).foldl round S

end Sys2Proof.Machine
end

