-- ==== Sys2Proof/Machine/Sponge.lean ====
section
/-! DEFINITION. The datapath of the sponge controller (41_sponge.md R141 to R143) and the reference function it
computes (R155). -/

namespace Sys2Proof.Machine

/-- `Absorb(S, blk)`: the block's 17 lanes into S[0..16]; the capacity S[17..24] stays (R141, R65). Irreducible, so
that a comparison of two states does not unfold the datapath. -/
@[irreducible] def absorb (S : Lanes) (blk : Block) : Lanes :=
  Vector.ofFn fun i => if h : i.val < Config.rateLanes then S[i] ^^^ blockLane blk ⟨i.val, h⟩ else S[i]

/-- `Pad(BUF, COUNT)`: 0x01 into byte COUNT, then 0x80 into byte 135, both into one byte when COUNT is 135
(R142). A COUNT above 135, which no reachable state has, names no byte of the block (DESIGN CHOICE, log
entry 8). -/
def pad (buf : Block) (count : Nat) : Block :=
  Vector.ofFn fun k =>
    (if k.val = count then buf[k] ^^^ Config.padFirst else buf[k]) ^^^
      (if k.val = 135 then Config.padLast else 0#8)

/-- The four digest lanes as one word, lane 0 least significant (R143). -/
def digestLanes (S : Lanes) : BitVec 256 := S[3] ++ S[2] ++ S[1] ++ S[0]

/-- The output `digest[255:0]`: the digest lanes in DONE, zero in every other phase (R32, R143). -/
def State.digest (s : State) : BitVec 256 :=
  match s.PHASE with
  | .done => digestLanes s.S
  | .abs => 0#256
  | .permBlk => 0#256
  | .permFin => 0#256
  | .err => 0#256

/-- The first 136 bytes of a list as a block, zero-filled behind its end (R142, R155). -/
def blockOf (bs : List Byte) : Block := Vector.ofFn fun k => bs.getD k.val 0#8

/-- Full block b of a message: `M[136b .. 136b+135]` (R155). -/
def messageBlock (M : List Byte) (b : Nat) : Block := blockOf (M.drop (Config.rateBytes * b))

/-- The tail of a message: the bytes behind its last full block (R155, glossary). -/
def messageTail (M : List Byte) : List Byte :=
  M.drop (Config.rateBytes * (M.length / Config.rateBytes))

/-- The state after absorbing and permuting every full block of M, from zero (R155 steps 1 and 2). -/
def absorbFullBlocks (M : List Byte) : Lanes :=
  (List.range (M.length / Config.rateBytes)).foldl (fun S b => keccakF (absorb S (messageBlock M b))) zeroLanes

/-- The final state of the reference sponge (R155 step 3). -/
def spongeState (M : List Byte) : Lanes :=
  keccakF (absorb (absorbFullBlocks M) (pad (blockOf (messageTail M)) (messageTail M).length))

/-- `Keccak256(M)`: `BYTES(S[0]) ‖ BYTES(S[1]) ‖ BYTES(S[2]) ‖ BYTES(S[3])` (R155 step 4). -/
def keccak256 (M : List Byte) : Vector Byte 32 :=
  Vector.ofFn fun i => (bytesOfLane (spongeState M)[i.val / 8])[i.val % 8]

end Sys2Proof.Machine
end

