-- ==== Sys2Proof/Machine/Ops.lean ====
section
/-! DEFINITION. The named operations on the state that the commands, the busy step and reset share. -/

namespace Sys2Proof.Machine

/-- `raise Error(code)`, the core's one exception entry: PHASE to ERR and the code to ERRC, everything else
kept (60_exceptions.md R182). No state is saved elsewhere and control goes nowhere. -/
def State.raiseError (s : State) (code : ErrorCode) : State := { s with PHASE := .err, ERRC := code }

/-- Every register to its reset value: INIT's effect, and the way out of ERR (R147, R185, R200). -/
def State.clear (s : State) : State :=
  { s with S := zeroLanes, BUF := zeroBlock, COUNT := 0#8, RND := 0, PHASE := .abs, ERRC := .none }

/-- A reset edge: every register to its reset value, and the core follows its rules from here on (R200, R203). -/
def State.resetEdge (s : State) : State := { s.clear with launched := true }

/-- A beat that leaves the block unfilled: BUF and COUNT (R148). -/
def State.stage (s : State) (nb : Block) (count : BitVec 8) : State := { s with BUF := nb, COUNT := count }

/-- A block is absorbed and its permutation started: S takes the block, BUF, COUNT and RND are cleared, PHASE
becomes the permuting phase (R148, R149, R140 XORBLK). -/
def State.absorbBlock (s : State) (blk : Block) (phase : Phase) : State :=
  { s with S := absorb s.S blk, BUF := zeroBlock, COUNT := 0#8, RND := 0, PHASE := phase }

/-- RND after a busy edge: the next round, 0 after round 23 (R153, R154). -/
def nextRound (r : Fin 24) : Fin 24 := if r.val < 23 then r + 1 else 0

/-- The phase a finished permutation goes to (R154). -/
def Phase.afterPermutation : Phase → Phase
  | .permBlk => .abs
  | .permFin => .done
  | .abs => .abs
  | .done => .done
  | .err => .err

/-- The busy step: one round, and at round 23 the end of the permutation (R153, R154, R113). -/
def State.busyStep (s : State) : State :=
  { s with
    S := round s.S s.RND
    RND := nextRound s.RND
    PHASE := if s.RND.val < 23 then s.PHASE else s.PHASE.afterPermutation }

/-- The effect `act` of a command in an accepting phase. While `cmd_ready` is 0 no command transfers and a
presented one has no effect (R145, D10); `step` never calls a meaning there (log entry 6). -/
def State.onTransfer (s : State) (act : State) : State := if s.cmdReady then act else s

/-- The ports with no command and no reset. -/
def idlePort : PortInput := ⟨false, false, 0#72⟩

/-- The values on the input ports at the next edge. When the list of inputs is empty the host drives nothing:
`rst` 0 and `cmd_valid` 0 (DESIGN CHOICE, log entry 4). -/
def State.portInput (s : State) : PortInput :=
  match s.inputs with
  | [] => idlePort
  | p :: _ => p

/-- The edge consumes its port values. -/
def State.takeInput (s : State) : State := { s with inputs := s.inputs.tail }

/-- What one rising edge does. -/
inductive EdgeAction where
  /-- `rst` is 1 (R200). -/
  | reset
  /-- No reset edge has occurred and none occurs now (R202). -/
  | unspecified
  /-- PHASE is PERM_BLK or PERM_FIN (R153). -/
  | busy
  /-- A command transfers (R145). -/
  | command (w : CmdWord)
  /-- Nothing changes. -/
  | hold
  deriving DecidableEq, Repr

/-- Which of its actions the core takes at the next edge, in priority order (R144, R145). -/
def State.edgeAction (s : State) : EdgeAction :=
  if s.portInput.rst then .reset
  else if !s.launched then .unspecified
  else if s.busy then .busy
  else if s.portInput.cmdValid then .command s.portInput.cmd
  else .hold

/-- The state with these values on the input ports at the next edge. -/
def State.present (s : State) (p : PortInput) : State := { s with inputs := p :: s.inputs.tail }

end Sys2Proof.Machine
end

