-- ==== Sys2Proof/Machine/Commands.lean ====
section
/-! DEFINITION. The meanings of the commands (41_sponge.md R146 to R150), one definition per row of the opcode
table. The checks run in the order of 60_exceptions.md R183. -/

namespace Sys2Proof.Machine

/-- NOP: no register changes (R146). -/
def execNop (s : State) : Host.Outcome State Fault Refusal := .next s

/-- INIT: legal in ABS, DONE and ERR (R147). -/
def execInit (s : State) : Host.Outcome State Fault Refusal := .next (s.onTransfer s.clear)

/-- ABSORB in phase ABS: the operand checks, then a block filled or bytes staged (R148). -/
def absorbBeat (s : State) (len : BitVec 4) (data : BitVec 64) : State :=
  if !legalLen len then s.raiseError .badLen
  else if crossesBlock s.COUNT len then s.raiseError .overflow
  else if fillsBlock s.COUNT len then s.absorbBlock (writeBeat s.BUF s.COUNT.toNat len data) .permBlk
  else s.stage (writeBeat s.BUF s.COUNT.toNat len data) (s.COUNT + len.setWidth 8)

/-- ABSORB: dropped in ERR, SEQUENCE in DONE (R148, R184). -/
def execAbsorb (len : BitVec 4) (data : BitVec 64) (s : State) : Host.Outcome State Fault Refusal :=
  .next <| s.onTransfer <|
    match s.PHASE with
    | .err => s
    | .done => s.raiseError .sequence
    | .abs => absorbBeat s len data
    | .permBlk => s
    | .permFin => s

/-- FINAL: pads, absorbs and starts the last permutation in ABS; dropped in ERR, SEQUENCE in DONE (R149). -/
def execFinal (s : State) : Host.Outcome State Fault Refusal :=
  .next <| s.onTransfer <|
    match s.PHASE with
    | .err => s
    | .done => s.raiseError .sequence
    | .abs => s.absorbBlock (pad s.BUF s.COUNT.toNat) .permFin
    | .permBlk => s
    | .permFin => s

/-- A reserved opcode: ILLEGAL_OP in ABS and DONE, dropped in ERR; `cmd[67:0]` and the rest of the opcode make
no difference (R150). -/
def reservedOp (s : State) : State :=
  s.onTransfer <|
    match s.PHASE with
    | .err => s
    | .done => s.raiseError .illegalOp
    | .abs => s.raiseError .illegalOp
    | .permBlk => s
    | .permFin => s

/-- RESERVED (op 0x4-0x7) (R150). -/
def execReservedLow (_sub : BitVec 2) (s : State) : Host.Outcome State Fault Refusal := .next (reservedOp s)

/-- RESERVED (op 0x8-0xF) (R150). -/
def execReservedHigh (_sub : BitVec 3) (s : State) : Host.Outcome State Fault Refusal := .next (reservedOp s)

end Sys2Proof.Machine
end

