-- ==== Sys2Proof/Machine/Dispatch.lean ====
section
/-! DEFINITION. One arm per constructor of Instr. -/

namespace Sys2Proof.Machine

def exec (i : Instr) (s : State) : Host.Outcome State Fault Refusal :=
  match i with
  | .nop => Sys2Proof.Machine.execNop s
  | .init => Sys2Proof.Machine.execInit s
  | .absorb len data => Sys2Proof.Machine.execAbsorb len data s
  | .final => Sys2Proof.Machine.execFinal s
  | .reservedLow sub => Sys2Proof.Machine.execReservedLow sub s
  | .reservedHigh sub => Sys2Proof.Machine.execReservedHigh sub s

end Sys2Proof.Machine
end

