-- ==== Sys2Proof/Machine/Step.lean ====
section
/-! DEFINITION. One rising edge of `clk` (41_sponge.md R144): the step of the machine. -/

namespace Sys2Proof.Machine

/-- One rising edge: exactly one action, in the priority order of R144. -/
def step (s : State) : Host.Outcome State Fault Refusal :=
  match s.edgeAction with
  | .reset => .next s.takeInput.resetEdge
  | .unspecified => .fault .registersUnspecified
  | .busy => .next s.takeInput.busyStep
  | .command w => exec (decode w) s.takeInput
  | .hold => .next s.takeInput

/-- The state with the command word `w` (its low `nbits` bits) presented at the next edge: `cmd_valid` 1, `rst`
0. The core fetches no instructions; its next command is what the host drives (R20, R63; log entry 7). -/
def State.withFetchWord (s : State) (nbits w : Nat) : State :=
  s.present ⟨false, true, wordOfBytes (layOut nbits w)⟩

end Sys2Proof.Machine
end

