-- ==== Sys2Proof/Machine/Driver.lean ====
section
/-! DEFINITION. The host that drives the core in closed loop: it holds each command until it transfers (R204),
waits on the outputs and samples them (R78). It counts the edges it drives (R210, R212). -/

namespace Sys2Proof.Machine

/-- One thing a host program does (R78): a command word to transfer, or a host action. -/
inductive HostAction where
  | issue (w : CmdWord)
  | reset
  | wait
  | waitDone
  | readDigest
  | readStatus
  deriving DecidableEq, Repr

/-- A value the host sampled from an output port (R78). -/
inductive Sample where
  | digest (d : BitVec 256)
  | status (v : BitVec 16)
  deriving DecidableEq, Repr

/-- Why a host program does not go on. -/
inductive HostStop where
  /-- The awaited output can not come any more: WAIT_DONE with no digest and no error to come. -/
  | hangs
  | fault (f : Fault)
  | refused (r : Refusal)
  deriving DecidableEq, Repr

/-- A host and its core: the core, the edges driven so far, how many of them were busy, the samples in order. -/
structure HostRun where
  core : State
  edges : Nat
  busy : Nat
  samples : List Sample
  deriving DecidableEq, Repr

/-- What the host reads from an output: unspecified before the first reset edge (R202, I3). -/
def State.observe {α : Type} (s : State) (f : State → α) : Except HostStop α :=
  if s.launched then .ok (f s) else .error (.fault .registersUnspecified)

/-- One rising edge with `p` on the input ports. -/
def HostRun.edge (h : HostRun) (p : PortInput) : Except HostStop HostRun :=
  let s := { h.core with inputs := [p] }
  match step s with
  | .next t =>
    .ok { h with
      core := t
      edges := h.edges + 1
      busy := h.busy + if s.edgeAction = .busy then 1 else 0 }
  | .fault f => .error (.fault f)
  | .refused r => .error (.refused r)

/-- Hold `p` on the ports, for at most `n` edges, until the output `ready` is seen. A permutation ends within 24
edges and nothing else changes an idle core, so what 24 edges do not bring never comes. -/
def HostRun.holdUntil (ready : State → Bool) (p : PortInput) : Nat → HostRun → Except HostStop HostRun
  | 0, h =>
    match h.core.observe ready with
    | .ok true => .ok h
    | .ok false => .error .hangs
    | .error e => .error e
  | n + 1, h =>
    match h.core.observe ready with
    | .ok true => .ok h
    | .ok false =>
      match h.edge p with
      | .ok h' => HostRun.holdUntil ready p n h'
      | .error e => .error e
    | .error e => .error e

/-- Present a command and hold it until the edge where it transfers (R204). -/
def HostRun.issue (h : HostRun) (w : CmdWord) : Except HostStop HostRun :=
  match h.holdUntil State.cmdReady ⟨false, true, w⟩ Config.nRounds with
  | .ok h' => h'.edge ⟨false, true, w⟩
  | .error e => .error e

/-- Sample an output; reading changes nothing (R59). -/
def HostRun.sample (h : HostRun) (f : State → Sample) : Except HostStop HostRun :=
  match h.core.observe f with
  | .ok v => .ok { h with samples := h.samples ++ [v] }
  | .error e => .error e

/-- One host action (R78). -/
def HostRun.act (h : HostRun) : HostAction → Except HostStop HostRun
  | .issue w => h.issue w
  | .reset => h.edge ⟨true, false, 0#72⟩
  | .wait => h.holdUntil State.cmdReady idlePort Config.nRounds
  | .waitDone => h.holdUntil (fun s => s.dvalid || s.errFlag) idlePort Config.nRounds
  | .readDigest => h.sample fun s => .digest s.digest
  | .readStatus => h.sample fun s => .status s.status

/-- A host program, action after action. -/
def HostRun.run : List HostAction → HostRun → Except HostStop HostRun
  | [], h => .ok h
  | a :: as, h =>
    match h.act a with
    | .ok h' => HostRun.run as h'
    | .error e => .error e

/-- A host that has done nothing yet, at a core. -/
def HostRun.start (s : State) : HostRun := ⟨s, 0, 0, []⟩

end Sys2Proof.Machine
end

