-- ==== Sys2Proof/Machine/Assembler.lean ====
section
/-! DEFINITION. The assembler of 30_encoding.md R77 to R80: the lines of a command stream, their text, and the
expansion of the pseudo-instructions. It is no part of the core (D26). -/

namespace Sys2Proof.Machine

/-- One line of a command stream (R77 to R80). -/
inductive AsmLine where
  | nop
  | init
  | absorb (len data : Nat)
  | final
  | absorbMsg (bytes : List Byte)
  | hash (bytes : List Byte)
  | reset
  | wait
  | waitDone
  | readDigest
  | readStatus
  deriving DecidableEq, Repr

/-- Why the assembler refuses a line. -/
inductive AsmError where
  /-- The first word of the line is no mnemonic; no mnemonic spells a reserved opcode (R77). -/
  | unknownMnemonic
  /-- The operands do not have the form of R77, R79 or R80. -/
  | badOperands
  /-- ABSORB with len outside 1..8 (R77). -/
  | badLen
  /-- ABSORB with data wider than `8·len` bits (R77). -/
  | dataTooWide
  deriving DecidableEq, Repr

/-- The beat that carries at most 8 bytes, zero bytes padding the data field (R79). -/
def beatOf (bs : List Byte) : Instr :=
  .absorb (BitVec.ofNat 4 bs.length) (le64 (Vector.ofFn fun j => bs.getD j.val 0#8))

/-- The loop of ABSORB_MSG, at fill position c, for at most `fuel` beats (R79). -/
def expandBeats : Nat → Nat → List Byte → List Instr
  | 0, _, _ => []
  | _ + 1, _, [] => []
  | fuel + 1, c, b :: bs =>
    let n := min Config.beatMax (min (b :: bs).length (Config.rateBytes - c))
    beatOf ((b :: bs).take n) :: expandBeats fuel ((c + n) % Config.rateBytes) ((b :: bs).drop n)

/-- `ABSORB_MSG bytes` at fill position c: beats that never cross a block boundary (R79). -/
def expandMessage (c : Nat) (bytes : List Byte) : List Instr := expandBeats bytes.length c bytes

/-- Transfer these commands one after the other. -/
def issueAll (is : List Instr) : List HostAction := is.map fun i => .issue (encode i)

/-- One line at fill position c: its actions and the fill position behind it (R77 to R80). -/
def assembleLine (c : Nat) : AsmLine → Except AsmError (List HostAction × Nat)
  | .nop => .ok (issueAll [.nop], c)
  | .init => .ok (issueAll [.init], 0)
  | .absorb len data =>
    if ¬(1 ≤ len ∧ len ≤ Config.beatMax) then .error .badLen
    else if 2 ^ (8 * len) ≤ data then .error .dataTooWide
    else
      .ok (issueAll [.absorb (BitVec.ofNat 4 len) (BitVec.ofNat 64 data)], (c + len) % Config.rateBytes)
  | .final => .ok (issueAll [.final], 0)
  | .absorbMsg bytes => .ok (issueAll (expandMessage c bytes), (c + bytes.length) % Config.rateBytes)
  | .hash bytes =>
    .ok (issueAll ([.init] ++ expandMessage 0 bytes ++ [.final]) ++ [.waitDone, .readDigest], 0)
  | .reset => .ok ([.reset], 0)
  | .wait => .ok ([.wait], c)
  | .waitDone => .ok ([.waitDone], c)
  | .readDigest => .ok ([.readDigest], c)
  | .readStatus => .ok ([.readStatus], c)

/-- A whole program from fill position c (R79: the assembler tracks c). -/
def assemble : Nat → List AsmLine → Except AsmError (List HostAction)
  | _, [] => .ok []
  | c, l :: ls =>
    match assembleLine c l with
    | .error e => .error e
    | .ok (as, c') =>
      match assemble c' ls with
      | .error e => .error e
      | .ok rest => .ok (as ++ rest)

/-- A hex digit, in upper case. -/
def hexChar (d : Nat) : Char := if d < 10 then Char.ofNat (48 + d) else Char.ofNat (55 + d)

/-- The listing form of a word: `0x`, then op, len and data as 18 hex digits, most significant first (R70). -/
def listing (w : CmdWord) : List Char :=
  '0' :: 'x' :: (List.range 18).map fun k => hexChar (w.toNat / 16 ^ (17 - k) % 16)

/-! ### The text of a line (R77 to R79) -/

/-- A blank between the parts of a line. -/
def isBlank (c : Char) : Bool := c == ' ' || c == '\t'

/-- Only blanks and a comment, which `;` starts, are left of the line (R77). -/
def lineEnds (cs : List Char) : Bool :=
  match cs.dropWhile isBlank with
  | [] => true
  | c :: _ => c == ';'

/-- The value of a hex digit, of either case. -/
def hexDigit (c : Char) : Option Nat :=
  if '0' ≤ c ∧ c ≤ '9' then some (c.toNat - 48)
  else if 'a' ≤ c ∧ c ≤ 'f' then some (c.toNat - 87)
  else if 'A' ≤ c ∧ c ≤ 'F' then some (c.toNat - 55)
  else none

/-- The value of digits in a base, each digit below it. -/
def digitsValue (base : Nat) (cs : List Char) : Option Nat :=
  cs.foldl (fun acc c =>
    match acc, hexDigit c with
    | some v, some d => if d < base then some (base * v + d) else none
    | _, _ => none) (some 0)

/-- The characters of a number. -/
def isNumberChar (c : Char) : Bool := (hexDigit c).isSome

/-- `<len>, <data>`: a decimal number, a comma, `0x` and 1 to 16 hex digits (R77). -/
def parseBeat (cs : List Char) : Option AsmLine :=
  let lenText := cs.takeWhile isNumberChar
  match (cs.dropWhile isNumberChar).dropWhile isBlank with
  | ',' :: rest =>
    match rest.dropWhile isBlank with
    | '0' :: 'x' :: rest =>
      let dataText := rest.takeWhile isNumberChar
      if lenText.isEmpty || dataText.isEmpty || decide (16 < dataText.length) then none
      else if !lineEnds (rest.dropWhile isNumberChar) then none
      else
        match digitsValue 10 lenText, digitsValue 16 dataText with
        | some len, some data => some (.absorb len data)
        | _, _ => none
    | _ => none
  | _ => none

/-- The bytes of pairs of hex digits (R79). -/
def hexPairs : List Char → Option (List Byte)
  | [] => some []
  | [_] => none
  | a :: b :: cs =>
    match hexDigit a, hexDigit b, hexPairs cs with
    | some x, some y, some bs => some (BitVec.ofNat 8 (16 * x + y) :: bs)
    | _, _, _ => none

/-- The quotation mark of an ASCII string (R79). -/
def quoteMark : Char := Char.ofNat 34

/-- `<bytes>`: a quoted ASCII string, or `hex:` and pairs of hex digits (R79). -/
def parseBytes : List Char → Option (List Byte)
  | 'h' :: 'e' :: 'x' :: ':' :: cs =>
    if lineEnds (cs.dropWhile isNumberChar) then hexPairs (cs.takeWhile isNumberChar) else none
  | c :: cs =>
    if c ≠ quoteMark then none
    else
      match cs.dropWhile (· ≠ quoteMark) with
      | [] => none
      | _ :: rest =>
        let text := cs.takeWhile (· ≠ quoteMark)
        if lineEnds rest ∧ text.all (fun d => decide (d.toNat < 128)) then
          some (text.map fun d => BitVec.ofNat 8 d.toNat)
        else none
  | [] => none

/-- A line without operands ends behind its mnemonic. -/
def bareLine (l : AsmLine) (rest : List Char) : Except AsmError AsmLine :=
  if lineEnds rest then .ok l else .error .badOperands

/-- A line with operands, from what was read of them. -/
def operandLine (l : Option AsmLine) : Except AsmError AsmLine :=
  match l with
  | some l => .ok l
  | none => .error .badOperands

/-- The line a mnemonic starts; mnemonics are case-insensitive (R77 to R80). -/
def parseMnemonic (word : List Char) (rest : List Char) : Except AsmError AsmLine :=
  let m := word.map Char.toUpper
  let operands := rest.dropWhile isBlank
  if m = "NOP".toList then bareLine .nop rest
  else if m = "INIT".toList then bareLine .init rest
  else if m = "ABSORB".toList then operandLine (parseBeat operands)
  else if m = "FINAL".toList then bareLine .final rest
  else if m = "ABSORB_MSG".toList then operandLine ((parseBytes operands).map .absorbMsg)
  else if m = "HASH".toList then operandLine ((parseBytes operands).map .hash)
  else if m = "RESET".toList then bareLine .reset rest
  else if m = "WAIT".toList then bareLine .wait rest
  else if m = "WAIT_DONE".toList then bareLine .waitDone rest
  else if m = "READ_DIGEST".toList then bareLine .readDigest rest
  else if m = "READ_STATUS".toList then bareLine .readStatus rest
  else .error .unknownMnemonic

/-- One line of text: nothing for an empty or a comment line, else a line of the stream (R77). -/
def parseLine (cs : List Char) : Except AsmError (Option AsmLine) :=
  let text := cs.dropWhile isBlank
  if lineEnds text then .ok none
  else
    let isWordChar := fun c : Char => c.isAlphanum || c == '_'
    match parseMnemonic (text.takeWhile isWordChar) (text.dropWhile isWordChar) with
    | .ok l => .ok (some l)
    | .error e => .error e

end Sys2Proof.Machine
end

