-- ==== Sys2Proof/Safety.lean ====
section
/-! DEFINITION. What counts as a safe run, in the terms the claims use: the invariants of 10_state.md R34, what it
is for a state to hold a message (R151), and the commands a run transfers (R145, R156). -/

namespace Sys2Proof.Machine

/-- The invariants (a) to (e) of every state reachable from reset (R34); (f) holds by the types. -/
abbrev State.Inv (s : State) : Prop :=
  s.COUNT.toNat ≤ 135 ∧
  (∀ k : Fin 136, s.COUNT.toNat ≤ k.val → s.BUF[k] = 0#8) ∧
  (s.busy = true → s.COUNT = 0#8 ∧ s.BUF = zeroBlock) ∧
  (s.busy = false → s.RND = 0) ∧
  (s.ERRC ≠ .none ↔ s.PHASE = .err)

/-- The core absorbs and holds the message M: its full blocks in S, its tail in BUF, its fill position in COUNT
(R151, R155). -/
structure State.Holds (s : State) (M : List Byte) : Prop where
  phase : s.PHASE = .abs
  rnd : s.RND = 0
  noError : s.ERRC = .none
  count : s.COUNT.toNat = M.length % Config.rateBytes
  lanes : s.S = absorbFullBlocks M
  tail : s.BUF = blockOf (messageTail M)

/-- An ABSORB that R148 executes without an error at fill position `count` in phase ABS. -/
def legalBeat (count : Nat) (len : BitVec 4) : Bool :=
  legalLen len && decide (count + len.toNat ≤ Config.rateBytes)

/-- The command that transfers at the next edge, if one does (R145). -/
def State.transfers (s : State) : Option Instr :=
  match s.edgeAction with
  | .command w => some (decode w)
  | .reset => none
  | .unspecified => none
  | .busy => none
  | .hold => none

/-- The commands that transfer in the next k edges, in transfer order (R61). -/
def transferred : Nat → State → List Instr
  | 0, _ => []
  | k + 1, s =>
    match step s with
    | .next t => s.transfers.toList ++ transferred k t
    | .fault _ => []
    | .refused _ => []

/-- How many of the next k edges are busy edges (R153). -/
def busyEdges : Nat → State → Nat
  | 0, _ => 0
  | k + 1, s =>
    match step s with
    | .next t => (if s.edgeAction = .busy then 1 else 0) + busyEdges k t
    | .fault _ => 0
    | .refused _ => 0

/-- What R211 says the values depend on: a transferred command or a reset. -/
inductive Event where
  | reset
  | command (i : Instr)
  deriving DecidableEq, Repr

/-- The event of the next edge; a NOP is none (R211). -/
def State.event (s : State) : Option Event :=
  match s.edgeAction with
  | .reset => some .reset
  | .command w => if decode w = .nop then none else some (.command (decode w))
  | .unspecified => none
  | .busy => none
  | .hold => none

/-- The events of the next k edges, in order (R211). -/
def events : Nat → State → List Event
  | 0, _ => []
  | k + 1, s =>
    match step s with
    | .next t => s.event.toList ++ events k t
    | .fault _ => []
    | .refused _ => []

/-- No reset is asserted in the next k edges. -/
def State.noReset (s : State) (k : Nat) : Bool := (s.inputs.take k).all fun p => !p.rst

/-- The message of a command stream that R156 speaks of: legal beats from fill position `count`, then one
FINAL, with NOPs anywhere; `none` for any other stream. -/
def messageOf : Nat → List Instr → Option (List Byte)
  | _, [] => none
  | count, .nop :: is => messageOf count is
  | count, .absorb len data :: is =>
    if legalBeat count len then
      (messageOf ((count + len.toNat) % Config.rateBytes) is).map (beatBytes len data ++ ·)
    else none
  | _, .final :: is => if is.all (fun i => decide (i = .nop)) then some [] else none
  | _, .init :: _ => none
  | _, .reservedLow _ :: _ => none
  | _, .reservedHigh _ :: _ => none

end Sys2Proof.Machine
end

