-- ==== Sys2Proof/Certificates/Slice0/Obligations.lean ====
section
/-! DEFINITION. The statements for the provers. Each docstring names the rule of spec/ it formalises. -/

open Sys2Proof Sys2Proof.Machine

/-! ### Encoding (30_encoding.md) -/

/-- No bit of an encoding is dropped: decoding the encoding of a well-formed command gives the command back, with
every operand at every value (R70 to R73). -/
def Obligations.DecodeOfEncodeIsTheCommand : Prop :=
  ∀ i : Instr, i.wellFormed = true → decode (encode i) = i

/-- Encoding what was decoded gives the word back with its ignored bits cleared, and what is decoded is
well-formed (R70 to R74). -/
def Obligations.EncodeOfDecodeClearsTheIgnoredBits : Prop :=
  ∀ w : CmdWord, (decode w).wellFormed = true ∧ encode (decode w) = clearIgnored w ∧
    opField (encode (decode w)) = opField w ∧
    (opField w = 0x2#4 → lenField (encode (decode w)) = lenField w ∧
      ∀ k, k < 64 → k < 8 * (lenField w).toNat → (encode (decode w)).getLsbD k = w.getLsbD k)

/-- Two words that differ only in ignored bits are the same command and have the same effect on every state; the
assembler emits ignored bits as zero (30_encoding.md §2, R73 and R74). The data clause covers every len: that data
bits from 8·len on make no difference when len is illegal (len = 0) is the model's reading of R73 (log entry 10,
DEDUCED), since R74 names ignored data bits for a legal len only. -/
def Obligations.IgnoredBitsNeverChangeAnything : Prop :=
  (∀ w w' : CmdWord, opField w = opField w' →
    (opField w = 0x2#4 → lenField w = lenField w' ∧
      ∀ k, k < 64 → k < 8 * (lenField w).toNat → w.getLsbD k = w'.getLsbD k) →
    decode w = decode w' ∧
      ∀ (s : State) (rst valid : Bool), step (s.present ⟨rst, valid, w⟩) = step (s.present ⟨rst, valid, w'⟩)) ∧
  (∀ i : Instr, i.wellFormed = true →
    ((∀ len data, i ≠ .absorb len data) → ∀ k, k < 68 → (encode i).getLsbD k = false) ∧
    (∀ len data, i = .absorb len data → ∀ k, k < 64 → 8 * len.toNat ≤ k → (encode i).getLsbD k = false))

/-- R71: the op field selects the command, and every 72-bit word is covered by exactly one row of the table. -/
def Obligations.EveryWordIsExactlyOneRow : Prop :=
  ∀ w : CmdWord,
    (opField w = 0x0#4 → decode w = .nop) ∧
    (opField w = 0x1#4 → decode w = .init) ∧
    (opField w = 0x2#4 → ∃ data, decode w = .absorb (lenField w) data) ∧
    (opField w = 0x3#4 → decode w = .final) ∧
    (4 ≤ (opField w).toNat → (opField w).toNat < 8 → ∃ sub, decode w = .reservedLow sub) ∧
    (8 ≤ (opField w).toNat → ∃ sub, decode w = .reservedHigh sub) ∧
    ∃ r ∈ opcodeTable, r.covers w = true ∧ r.mnemonic = (decode w).mnemonic ∧
      ∀ r' ∈ opcodeTable, r'.covers w = true → r' = r

/-- Words written out from the spec's encodings stand for their commands (R70, R71; V-C1 to V-C14). -/
def Obligations.WordsOfTheSpecDecode : Prop :=
  decode 0x0FFFFFFFFFFFFFFFFF#72 = .nop ∧ decode 0x100000000000000000#72 = .init ∧
  decode 0x230000000000636261#72 = .absorb 3#4 0x636261#64 ∧
  decode 0x23FFFFFFFFFF636261#72 = .absorb 3#4 0x636261#64 ∧
  decode 0x280706050403020100#72 = .absorb 8#4 0x0706050403020100#64 ∧
  decode 0x300000000000000000#72 = .final ∧ decode 0x400000000000000000#72 = .reservedLow 0#2 ∧
  decode 0xF00000000000000000#72 = .reservedHigh 7#3

/-- The word of the opcode table's numbering is the word that the decoder reads and that is presented at the next
edge (the layout is the model's own: log entry 7, DESIGN CHOICE). -/
def Obligations.PresentedWordIsTheTableWord : Prop :=
  ∀ (s : State) (w : CmdWord), decodeTableWord 72 w.toNat = some (decode w) ∧
    s.withFetchWord 72 w.toNat = s.present ⟨false, true, w⟩

/-- The expansion of ABSORB_MSG at fill position c is a legal stream of beats that carries exactly the
bytes and never crosses a block; from c = 0 it is full beats and then at most one shorter one (the spec's own
inference in R79); the assembler tracks c (R79). -/
def Obligations.AbsorbMsgExpandsIntoLegalBeats : Prop :=
  (∀ (c : Nat) (bytes : List Byte), c < 136 →
    messageOf c (expandMessage c bytes ++ [.final]) = some bytes ∧
    (∀ i ∈ expandMessage c bytes, i.wellFormed = true) ∧
    assembleLine c (.absorbMsg bytes) =
      .ok ((expandMessage c bytes).map (fun i => .issue (encode i)), (c + bytes.length) % 136)) ∧
  (∀ bytes : List Byte, (expandMessage 0 bytes).length = (bytes.length + 7) / 8 ∧
    ∀ j, j < bytes.length / 8 → ∃ data, (expandMessage 0 bytes)[j]? = some (.absorb 8#4 data)) ∧
  (∀ c, expandMessage c [] = []) ∧
  (∀ c, (assembleLine c .reset).map Prod.snd = .ok 0 ∧ (assembleLine c .init).map Prod.snd = .ok 0 ∧
    (assembleLine c .final).map Prod.snd = .ok 0)

/-- The assembler takes ABSORB with len in 1..8 and data of at most `8·len` bits and refuses every other one, and
the word it emits is op 0x2, len, data (R77, R70). That the tracked position behind the line is (c + len) mod 136,
for every c, is the model's choice (log entry 11, DESIGN CHOICE). -/
def Obligations.AssemblerRefusesIllegalBeats : Prop :=
  ∀ c len data : Nat,
    (¬(1 ≤ len ∧ len ≤ 8) → assembleLine c (.absorb len data) = .error .badLen) ∧
    (1 ≤ len → len ≤ 8 → 2 ^ (8 * len) ≤ data → assembleLine c (.absorb len data) = .error .dataTooWide) ∧
    (1 ≤ len → len ≤ 8 → data < 2 ^ (8 * len) → ∃ w : CmdWord,
      assembleLine c (.absorb len data) = .ok ([.issue w], (c + len) % 136) ∧
      w.toNat = 2 * 2 ^ 68 + len * 2 ^ 64 + data)

/-! ### Byte order (20_memory.md) -/

/-- R52: `LE64` is the sum of its bytes shifted by 8 j, `BYTES` is its inverse, and block lane w packs bytes
8w..8w+7; every absorption and the digest port use this packing. -/
def Obligations.LanePackingIsLittleEndian : Prop :=
  (∀ bs : Vector Byte 8, (le64 bs).toNat = ((List.range 8).map fun j => (bs.toList.getD j 0#8).toNat * 2 ^ (8 * j)).sum) ∧
  (∀ L : Lane, le64 (bytesOfLane L) = L) ∧ (∀ bs : Vector Byte 8, bytesOfLane (le64 bs) = bs) ∧
  (∀ (blk : Block) (w : Fin 17) (j : Fin 8), (blockLane blk w).extractLsb' (8 * j.val) 8 = blk[8 * w.val + j.val]) ∧
  le64 #v[0x61#8, 0x62#8, 0x63#8, 0x01#8, 0x00#8, 0x00#8, 0x00#8, 0x00#8] = 0x0000000001636261#64 ∧
  (∀ (S : Lanes) (blk : Block) (w : Fin 17), (absorb S blk)[w.val] = S[w.val] ^^^ blockLane blk w) ∧
  (∀ (s : State) (i : Fin 32), s.PHASE = .done →
    s.digest.extractLsb' (8 * i.val) 8 = (bytesOfLane s.S[i.val / 8])[i.val % 8])

/-- Absorption in the byte view: block byte k is XORed into state byte k, k = 0..135, and state bytes 136..199 stay
(R51, R52, R141). -/
def Obligations.AbsorptionXorsBlockBytesIntoStateBytes : Prop :=
  ∀ (S : Lanes) (blk : Block),
    (∀ k : Fin 136, stateByte (absorb S blk) ⟨k.val, by omega⟩ = stateByte S ⟨k.val, by omega⟩ ^^^ blk[k]) ∧
    (∀ k : Fin 200, 136 ≤ k.val → stateByte (absorb S blk) k = stateByte S k)

/-! ### The permutation engine (40_permutation.md) -/

/-- R101: `rotl64` is the left rotation on 1..63: bit i goes to bit (i + n) mod 64. -/
def Obligations.RotateLeftMovesEveryBit : Prop :=
  (∀ (v : Lane) (n : RotAmount),
    rotl64 v n = ((v <<< n.val) ||| (v >>> (64 - n.val))) ∧
    ∀ i, i < 64 → (rotl64 v n).getLsbD ((i + n.val) % 64) = v.getLsbD i) ∧
  (∀ i : Fin 24, 1 ≤ ROTC[i].val ∧ ROTC[i].val ≤ 62) ∧
  rotl64 0x8000000000000000#64 ⟨1, by decide⟩ = 0x0000000000000001#64 ∧
  rotl64 0x0123456789ABCDEF#64 ⟨4, by decide⟩ = 0x123456789ABCDEF0#64

/-- The round constants are those of the LFSR the spec names as evidence: bit `2^j - 1` of RC[r] is rc(j + 7r), and no
other bit is set (R102; the values are presumed, log entry 1). -/
def Obligations.RoundConstantsFollowTheLfsr : Prop :=
  ∀ r : Fin 24, ∀ b : Fin 64,
    RC[r].getLsbD b.val =
      (List.range 7).any fun j => decide (b.val = 2 ^ j - 1) && lfsrBit (j + 7 * r.val)

/-- PILN is a permutation of 1..24: lane 0 never appears, every other lane exactly once (R104; the values are
presumed, log entry 3). -/
def Obligations.PilnVisitsEveryOtherLaneOnce : Prop :=
  (∀ i : Fin 24, PILN[i] ≠ 0) ∧
  (∀ j : Fin 25, j ≠ 0 → ∃ i : Fin 24, PILN[i] = j ∧ ∀ i' : Fin 24, PILN[i'] = j → i' = i)

/-- R105: theta XORs into every lane of column x the parity of column x - 1 and the rotated parity of column
x + 1, all parities taken from the input. -/
def Obligations.ThetaAddsTheNeighbourParities : Prop :=
  (∀ (S : Lanes) (x y : Fin 5),
    let bc : Fin 5 → Lane := fun x => S[x.val] ^^^ S[x.val + 5] ^^^ S[x.val + 10] ^^^ S[x.val + 15] ^^^ S[x.val + 20]
    (theta S)[x.val + 5 * y.val] =
      S[x.val + 5 * y.val] ^^^
        (bc ⟨(x.val + 4) % 5, by omega⟩ ^^^ rotl64 (bc ⟨(x.val + 1) % 5, by omega⟩) ⟨1, by decide⟩)) ∧
  theta zeroLanes = zeroLanes ∧
  theta (zeroLanes.set 0 1#64) =
    #v[1, 1, 0, 0, 2, 0, 1, 0, 0, 2, 0, 1, 0, 0, 2, 0, 1, 0, 0, 2, 0, 1, 0, 0, 2]

/-- Theta is linear: the spec's own inference in R105, "THETA(A ^ B) = THETA(A) ^ THETA(B)". -/
def Obligations.ThetaIsLinear : Prop :=
  ∀ A B : Lanes, theta (Vector.zipWith (· ^^^ ·) A B) = Vector.zipWith (· ^^^ ·) (theta A) (theta B)

/-- The rho-pi loop of R106 is its closed form on every state: destination (y, 2x + 3y mod 5) takes lane (x, y)
rotated by R[x][y]; and the wiring of the hardware is the loop. The spec's own inference in R107, "they are equal on
all 2^1600 inputs". -/
def Obligations.RhoPiLoopIsItsClosedForm : Prop :=
  (∀ (A : Lanes) (x y : Fin 5),
    (rhoPi A)[y.val + 5 * ((2 * x.val + 3 * y.val) % 5)] =
      rotOrKeep A[x.val + 5 * y.val] rhoOffsets[x.val][y.val]) ∧
  ∀ A : Lanes, rhoPi A = rhoPiWiring A

/-- The corner cases of the rho-pi loop: lane 0 is kept and does not reach another lane (the spec's own inference in
R106, "S[0] is neither read nor written"), zero stays zero, all-ones stays all-ones; V-RP1. -/
def Obligations.RhoPiKeepsLaneZero : Prop :=
  (∀ A : Lanes, (rhoPi A)[0] = A[0]) ∧
  (∀ (A : Lanes) (v : Lane) (i : Fin 25), i ≠ 0 → (rhoPi (A.set 0 v))[i] = (rhoPi A)[i]) ∧
  rhoPi zeroLanes = zeroLanes ∧
  rhoPi (Vector.replicate 25 (BitVec.allOnes 64)) = Vector.replicate 25 (BitVec.allOnes 64) ∧
  rhoPi (theta (zeroLanes.set 0 1#64)) =
    #v[0x1, 0x0000100000000000, 0, 0, 0x8000, 0, 0x200000, 0, 0x0000200000000000, 0, 0x2, 0, 0, 0x200, 0,
       0x10000000, 0, 0x400, 0, 0, 0, 0, 0x0000010000000000, 0, 0x4]

/-- R108: chi on every row, all five lanes read before any is written. -/
def Obligations.ChiMixesEveryRow : Prop :=
  (∀ (S : Lanes) (y i : Fin 5),
    let a : Fin 5 → Lane := fun j => S[5 * y.val + j.val]
    (chi S)[5 * y.val + i.val] =
      a i ^^^ (~~~(a ⟨(i.val + 1) % 5, by omega⟩) &&& a ⟨(i.val + 2) % 5, by omega⟩)) ∧
  (∀ (S : Lanes) (y : Fin 5), (∀ i : Fin 5, S[5 * y.val + i.val] = 0#64) →
    ∀ i : Fin 5, (chi S)[5 * y.val + i.val] = 0#64) ∧
  (∀ (S : Lanes) (y : Fin 5), (∀ i : Fin 5, S[5 * y.val + i.val] = BitVec.allOnes 64) →
    ∀ i : Fin 5, (chi S)[5 * y.val + i.val] = BitVec.allOnes 64) ∧
  (∀ (S T : Lanes) (k : Nat) (y : Fin 5),
    (∀ i : Fin 5, S[5 * y.val + i.val].getLsbD k = T[5 * y.val + i.val].getLsbD k) →
    ∀ i : Fin 5, (chi S)[5 * y.val + i.val].getLsbD k = (chi T)[5 * y.val + i.val].getLsbD k) ∧
  (chi (zeroLanes.set 0 1#64)) = (zeroLanes.set 0 1#64).set 3 1#64 ∧
  (chi ((zeroLanes.set 0 0xF0F0F0F0F0F0F0F0#64).set 1 0xFF00FF00FF00FF00#64)) =
    (((zeroLanes.set 0 0xF0F0F0F0F0F0F0F0#64).set 1 0xFF00FF00FF00FF00#64).set 3 0xF0F0F0F0F0F0F0F0#64).set 4
      0x0F000F000F000F00#64

/-- R109: iota changes lane 0 only, by the round constant, and undoes itself. -/
def Obligations.IotaChangesLaneZeroOnly : Prop :=
  (∀ (S : Lanes) (r : Fin 24), (iota S r)[0] = S[0] ^^^ RC[r] ∧
    (∀ i : Fin 25, i ≠ 0 → (iota S r)[i] = S[i]) ∧ iota (iota S r) r = S) ∧
  (round zeroLanes 0)[0] = 1#64

/-- Round r is theta, then rho-pi, then chi, then iota, and theta and chi do not commute: on S[0] = 1 the two
orders differ in lane 4 (R110; V-RD0, V-RD1, V-ORD1). -/
def Obligations.RoundAppliesTheStepsInOrder : Prop :=
  (∀ (S : Lanes) (r : Fin 24), round S r = iota (chi (rhoPi (theta S))) r) ∧
  (round (round zeroLanes 0) 1)[0] = 0x0000000000008083#64 ∧
  (∀ i : Fin 25, (chi (theta (zeroLanes.set 0 1#64)))[i] = (theta (chi (zeroLanes.set 0 1#64)))[i] ↔ i ≠ 4)

/-! ### Absorption, padding, digest (41_sponge.md §1) -/

/-- R141: absorption XORs the 17 block lanes into S[0..16] and keeps the capacity S[17..24]. -/
def Obligations.AbsorbXorsTheRateLanesOnly : Prop :=
  ∀ (S : Lanes) (blk : Block),
    (∀ w : Fin 17, (absorb S blk)[w.val] =
      S[w.val] ^^^ le64 #v[blk[8 * w.val], blk[8 * w.val + 1], blk[8 * w.val + 2], blk[8 * w.val + 3],
        blk[8 * w.val + 4], blk[8 * w.val + 5], blk[8 * w.val + 6], blk[8 * w.val + 7]]) ∧
    (∀ w : Fin 25, 17 ≤ w.val → (absorb S blk)[w] = S[w])

/-- R142: 0x01 into byte COUNT and 0x80 into byte 135; over a buffer that is zero from COUNT on the padded block is the
tail, 0x01, zeros and 0x80, or 0x81 in byte 135 when COUNT is 135. -/
def Obligations.PaddingIsMultiRate : Prop :=
  ∀ (buf : Block) (count : Nat), count ≤ 135 →
    (∀ k : Fin 136, (pad buf count)[k] =
      (if k.val = 135 then 0x80#8 else 0#8) ^^^ ((if k.val = count then 0x01#8 else 0#8) ^^^ buf[k])) ∧
    ((∀ k : Fin 136, count ≤ k.val → buf[k] = 0#8) →
      (∀ k : Fin 136, k.val < count → (pad buf count)[k] = buf[k]) ∧
      (count < 135 → (pad buf count)[count]! = 0x01#8 ∧ (pad buf count)[135] = 0x80#8) ∧
      (count = 135 → (pad buf count)[135] = 0x81#8) ∧
      (∀ k : Fin 136, count < k.val → k.val < 135 → (pad buf count)[k] = 0#8))

/-- R143, R54, R32: the digest port carries lanes 3..0 in DONE and zero in every other phase; digest byte i is state
byte i; it is a function of S and PHASE only and reads zero after reset. -/
def Obligations.DigestPortShowsTheFirstFourLanesInDone : Prop :=
  (∀ s : State, s.digest = if s.PHASE = .done then s.S[3] ++ s.S[2] ++ s.S[1] ++ s.S[0] else 0#256) ∧
  (∀ (s : State) (i : Fin 32), s.PHASE = .done →
    s.digest.extractLsb' (8 * i.val) 8 = stateByte s.S ⟨i.val, by omega⟩) ∧
  (∀ s t : State, s.PHASE = t.PHASE → (∀ i : Fin 4, s.S[i.val] = t.S[i.val]) → s.digest = t.digest) ∧
  State.reset.digest = 0#256

/-- R31: every field of the status word, and its value after reset. -/
def Obligations.StatusWordHasItsFields : Prop :=
  (∀ s : State,
    (s.status.getLsbD 0 = true ↔ s.PHASE = .abs ∨ s.PHASE = .done ∨ s.PHASE = .err) ∧
    (s.status.getLsbD 1 = true ↔ s.PHASE = .permBlk ∨ s.PHASE = .permFin) ∧
    (s.status.getLsbD 2 = true ↔ s.PHASE = .done) ∧
    (s.status.getLsbD 3 = true ↔ s.PHASE = .err) ∧
    (s.status.extractLsb' 4 3).toNat =
      (match s.ERRC with | .none => 0 | .illegalOp => 1 | .badLen => 2 | .overflow => 3 | .sequence => 4) ∧
    s.status.getLsbD 7 = false ∧
    s.status.extractLsb' 8 8 = s.COUNT ∧
    s.status.getLsbD 0 = s.cmdReady) ∧
  State.reset.status = 0x0001#16

/-- R30: `cmd_ready` and `busy` are functions of PHASE alone. -/
def Obligations.CommandReadyIsAFunctionOfThePhase : Prop :=
  ∀ s : State, (s.cmdReady = true ↔ ¬(s.PHASE = .permBlk ∨ s.PHASE = .permFin)) ∧ s.busy = !s.cmdReady ∧
    (s.cmdReady = true ↔ s.PHASE.toBits = 0#3 ∨ s.PHASE.toBits = 3#3 ∨ s.PHASE.toBits = 4#3) ∧
    ∀ t : State, s.PHASE = t.PHASE → s.cmdReady = t.cmdReady ∧ s.busy = t.busy

/-! ### Reset and the clock edge (70_reset_and_hazards.md, 41_sponge.md §2, §4) -/

/-- The reset values and the outputs after reset (R35). -/
def Obligations.ResetStateHoldsTheResetValues : Prop :=
  (∀ i : Fin 25, State.reset.S[i] = 0#64) ∧ (∀ k : Fin 136, State.reset.BUF[k] = 0#8) ∧
  State.reset.COUNT = 0#8 ∧ State.reset.RND = 0 ∧ State.reset.PHASE = .abs ∧ State.reset.ERRC = .none ∧
  State.reset.cmdReady = true ∧ State.reset.status = 0x0001#16 ∧ State.reset.digest = 0#256

/-- R200: a reset edge gives every register its reset value whatever the state, `cmd_valid` and `cmd`; no command
transfers there, the next one may at the next edge, and INIT leaves the same registers. -/
def Obligations.ResetEdgeLoadsTheResetValues : Prop :=
  (∀ s : State, s.portInput.rst = true → s.transfers = none ∧
    ∃ t, step s = .next t ∧ t = { State.reset with inputs := s.inputs.tail } ∧
      t.status = 0x0001#16 ∧ t.cmdReady = true ∧ t.digest = 0#256 ∧
      (t.portInput.rst = false → t.portInput.cmdValid = true → t.transfers = some (decode t.portInput.cmd))) ∧
  (∀ s : State, s.cmdReady = true → s.launched = true →
    exec .init s = .next { State.reset with inputs := s.inputs })

/-- R201: reset has priority over the busy step and over a command, aborts a permutation in every round, and held for
several edges it is one reset. -/
def Obligations.ResetAbortsAndHoldingItIsIdempotent : Prop :=
  (∀ s : State, s.portInput.rst = true → step s = .next { State.reset with inputs := s.inputs.tail }) ∧
  (∀ (s : State) (n : Nat), n < s.inputs.length → (∀ p ∈ s.inputs.take (n + 1), p.rst = true) →
    Sys2Proof.core.run (n + 1) s = .next { State.reset with inputs := s.inputs.drop (n + 1) })

/-- Before the first reset edge no edge without `rst` and no read of an output gives a value, whatever the registers
hold; a reset edge launches the core (R202, R203; the fault is what 93_implementation_defined.md I3 prescribes,
log entry 5). -/
def Obligations.NothingRunsBeforeTheFirstReset : Prop :=
  ∀ s : State, s.launched = false →
    (s.portInput.rst = false → step s = .fault .registersUnspecified) ∧
    s.observe State.status = .error (.fault .registersUnspecified) ∧
    s.observe State.digest = .error (.fault .registersUnspecified) ∧
    s.observe State.cmdReady = .error (.fault .registersUnspecified) ∧
    (s.portInput.rst = true → ∃ t, step s = .next t ∧ t.launched = true)

/-- A step runs the decoded command: when the host presents a command to a launched core that is ready, the step is
`exec` of the command its word decodes to, at the state that has taken the port values (R144, R145). -/
def Obligations.StepRunsTheDecodedCommand : Prop :=
  ∀ (s : State) (p : PortInput) (rest : List PortInput), s.launched = true → s.cmdReady = true →
    s.inputs = p :: rest → p.rst = false → p.cmdValid = true →
    step s = exec (decode p.cmd) { s with inputs := rest } ∧
    ∀ i : Instr, decode p.cmd = i → step s = exec i { s with inputs := rest }

/-- R144 and R153: at every edge exactly one action, in the order reset, busy step, command, nothing; what no branch
writes is kept. The busy step applies round RND and advances RND below 23. -/
def Obligations.EdgeTakesOneActionInPriorityOrder : Prop :=
  ∀ s : State, s.launched = true →
    (s.portInput.rst = true → step s = .next { State.reset with inputs := s.inputs.tail }) ∧
    (s.portInput.rst = false → (s.PHASE = .permBlk ∨ s.PHASE = .permFin) → s.RND.val < 23 →
      ∃ r : Fin 24, r.val = s.RND.val + 1 ∧
        step s = .next { s with S := round s.S s.RND, RND := r, inputs := s.inputs.tail }) ∧
    (s.portInput.rst = false → s.PHASE = .permBlk → s.RND.val = 23 →
      step s = .next { s with S := round s.S 23, RND := 0, PHASE := .abs, inputs := s.inputs.tail }) ∧
    (s.portInput.rst = false → s.PHASE = .permFin → s.RND.val = 23 →
      step s = .next { s with S := round s.S 23, RND := 0, PHASE := .done, inputs := s.inputs.tail }) ∧
    (s.portInput.rst = false → ¬(s.PHASE = .permBlk ∨ s.PHASE = .permFin) → s.portInput.cmdValid = true →
      step s = exec (decode s.portInput.cmd) { s with inputs := s.inputs.tail }) ∧
    (s.portInput.rst = false → ¬(s.PHASE = .permBlk ∨ s.PHASE = .permFin) → s.portInput.cmdValid = false →
      step s = .next { s with inputs := s.inputs.tail })

/-- R145: a command transfers exactly when `rst` is 0, `cmd_valid` is 1 and `cmd_ready` is 1, and is then executed; one
presented while `cmd_ready` is 0 has no effect and is no error. -/
def Obligations.CommandTransfersExactlyWhenReady : Prop :=
  ∀ s : State, s.launched = true →
    (s.transfers.isSome = true ↔
      s.portInput.rst = false ∧ s.portInput.cmdValid = true ∧ s.cmdReady = true) ∧
    (∀ i, s.transfers = some i → i = decode s.portInput.cmd ∧ step s = exec i { s with inputs := s.inputs.tail }) ∧
    (s.cmdReady = false → ∀ (valid : Bool) (w : CmdWord),
      (s.present ⟨false, valid, w⟩).transfers = none ∧
      step (s.present ⟨false, valid, w⟩) = step (s.present ⟨false, false, 0#72⟩) ∧
      ∀ t, step (s.present ⟨false, valid, w⟩) = .next t → t.ERRC = s.ERRC ∧ t.PHASE ≠ .err) ∧
    (s.cmdReady = true → ∀ w : CmdWord, (s.present ⟨false, true, w⟩).transfers = some (decode w))

/-- A meaning called while the core is busy changes nothing, for every command (R145; the meanings are never called
there by a step: log entry 6). -/
def Obligations.CommandsChangeNothingWhileBusy : Prop :=
  ∀ (i : Instr) (s : State), s.busy = true → exec i s = .next s

/-- The spec's own inference in R114 ("The state after the 24th edge is `KeccakF(S0)`") and the length of a
permutation in R154: from a permuting phase at round 0, if no reset occurs, 24 edges apply rounds 0..23, whatever the
host presents; the core is busy before each of them, S then holds KeccakF of what it held, and PHASE is ABS after
PERM_BLK and DONE after PERM_FIN. -/
def Obligations.PermutationTakesTwentyFourEdges : Prop :=
  ∀ s : State, s.launched = true → s.RND = 0 → s.noReset 24 = true →
    (s.PHASE = .permBlk → Sys2Proof.core.run 24 s =
      .next { s with S := keccakF s.S, PHASE := .abs, inputs := s.inputs.drop 24 }) ∧
    (s.PHASE = .permFin → Sys2Proof.core.run 24 s =
      .next { s with S := keccakF s.S, PHASE := .done, inputs := s.inputs.drop 24 }) ∧
    (s.busy = true → ∀ j : Fin 24, ∃ t : State, Sys2Proof.core.run j.val s = .next t ∧ t.cmdReady = false ∧
      t.RND = j ∧ t.PHASE = s.PHASE ∧ t.S = ((List.finRange 24).take j.val).foldl round s.S)

/-- While the core is busy, in a state that meets the invariants, the host sees status 0x0002, `cmd_ready` 0 and
digest 0 (R205, R34 (c)). -/
def Obligations.BusyOutputsAreConstant : Prop :=
  ∀ s : State, s.Inv → s.busy = true → s.ERRC = .none ∧ s.status = 0x0002#16 ∧ s.cmdReady = false ∧ s.digest = 0#256

/-! ### The commands (41_sponge.md §3) -/

/-- NOP changes no register, and every word with op 0x0 is a NOP (41_sponge.md §3, R146). R146 says so of the
accepting phases ABS, DONE and ERR; that the meaning changes nothing in PERM_BLK and PERM_FIN, where no NOP
transfers, is the model's reading of R145 (log entry 6, DEDUCED). -/
def Obligations.NopChangesNothing : Prop :=
  (∀ s : State, exec .nop s = .next s) ∧
  (∀ w : CmdWord, opField w = 0x0#4 → decode w = .nop) ∧
  (∀ t, exec .nop State.reset = .next t → t.status = 0x0001#16)

/-- R147: INIT in every accepting phase clears every register and the latched error, as a reset does; it cannot
transfer while the core is busy; repeating it changes nothing more. -/
def Obligations.InitClearsEveryRegister : Prop :=
  (∀ s : State, s.busy = true → s.transfers ≠ some .init) ∧
  ∀ s : State, s.PHASE = .abs ∨ s.PHASE = .done ∨ s.PHASE = .err →
    ∃ t : State, exec .init s = .next t ∧
      t = { s with
        S := Vector.replicate 25 0#64, BUF := Vector.replicate 136 0#8, COUNT := 0#8, RND := 0
        PHASE := .abs, ERRC := .none } ∧
      t = { State.reset with launched := s.launched, inputs := s.inputs } ∧
      t.status = 0x0001#16 ∧ t.digest = 0#256 ∧ exec .init t = .next t

/-- ABSORB of a legal beat that does not fill the block, in phase ABS: bytes COUNT..COUNT+len-1 of BUF take the beat's
bytes, COUNT advances by len, everything else is kept (R148, R53). -/
def Obligations.AbsorbStagesTheBeat : Prop :=
  ∀ (s : State) (len : BitVec 4) (data : BitVec 64), s.PHASE = .abs → 1 ≤ len.toNat → len.toNat ≤ 8 →
    s.COUNT.toNat + len.toNat < 136 →
    ∃ t : State, exec (.absorb len data) s = .next t ∧
      t = { s with BUF := t.BUF, COUNT := t.COUNT } ∧
      t.COUNT.toNat = s.COUNT.toNat + len.toNat ∧
      ∀ k : Fin 136, t.BUF[k] =
        if s.COUNT.toNat ≤ k.val ∧ k.val < s.COUNT.toNat + len.toNat then
          data.extractLsb' (8 * (k.val - s.COUNT.toNat)) 8
        else s.BUF[k]

/-- ABSORB of a legal beat that fills the block, in phase ABS: the block with the beat is absorbed, BUF, COUNT and
RND are cleared, a permutation starts and the core is busy, everything else is kept (R148). -/
def Obligations.AbsorbOfAFullBlockStartsThePermutation : Prop :=
  ∀ (s : State) (len : BitVec 4) (data : BitVec 64), s.PHASE = .abs → 1 ≤ len.toNat → len.toNat ≤ 8 →
    s.COUNT.toNat + len.toNat = 136 →
    ∃ (nb : Block) (t : State),
      (∀ k : Fin 136, nb[k] =
        if s.COUNT.toNat ≤ k.val then data.extractLsb' (8 * (k.val - s.COUNT.toNat)) 8 else s.BUF[k]) ∧
      exec (.absorb len data) s = .next t ∧
      t = { s with
        S := absorb s.S nb, BUF := Vector.replicate 136 0#8, COUNT := 0#8, RND := 0, PHASE := .permBlk } ∧
      t.cmdReady = false ∧ t.busy = true

/-- ABSORB outside its legal cases: dropped in ERR, SEQUENCE in DONE, BAD_LEN before OVERFLOW in ABS; an error writes no
byte and changes PHASE and ERRC only (R148, R56, R58). -/
def Obligations.AbsorbErrorsWriteNothing : Prop :=
  ∀ (s : State) (len : BitVec 4) (data : BitVec 64),
    (s.PHASE = .err → exec (.absorb len data) s = .next s) ∧
    (s.PHASE = .done → exec (.absorb len data) s = .next { s with PHASE := .err, ERRC := .sequence }) ∧
    (s.PHASE = .abs → len.toNat = 0 ∨ 8 < len.toNat →
      exec (.absorb len data) s = .next { s with PHASE := .err, ERRC := .badLen }) ∧
    (s.PHASE = .abs → 1 ≤ len.toNat → len.toNat ≤ 8 → 136 < s.COUNT.toNat + len.toNat →
      exec (.absorb len data) s = .next { s with PHASE := .err, ERRC := .overflow })

/-- FINAL: in ABS, at every legal COUNT, the padded block is absorbed, BUF, COUNT and RND are cleared and the last
permutation starts; dropped in ERR, SEQUENCE in DONE; everything else is kept (R149, R142). -/
def Obligations.FinalAbsorbsThePaddedBlock : Prop :=
  ∀ s : State,
    (s.PHASE = .abs → s.COUNT.toNat ≤ 135 → ∃ blk : Block,
      (∀ k : Fin 136, blk[k] =
        (s.BUF[k] ^^^ (if k.val = s.COUNT.toNat then 0x01#8 else 0#8)) ^^^
          (if k.val = 135 then 0x80#8 else 0#8)) ∧
      exec .final s = .next { s with
        S := absorb s.S blk, BUF := Vector.replicate 136 0#8, COUNT := 0#8, RND := 0, PHASE := .permFin }) ∧
    (s.PHASE = .done → exec .final s = .next { s with PHASE := .err, ERRC := .sequence }) ∧
    (s.PHASE = .err → exec .final s = .next s)

/-- R150: a reserved opcode raises ILLEGAL_OP in ABS and DONE, is dropped in ERR, and nothing else changes; it masks
the digest, and from reset status reads 0x0019. -/
def Obligations.ReservedOpcodesRaiseIllegalOp : Prop :=
  (∀ (s : State) (i : Instr), ((∃ sub, i = .reservedLow sub) ∨ ∃ sub, i = .reservedHigh sub) →
    (s.PHASE = .abs ∨ s.PHASE = .done → ∃ t : State, exec i s = .next t ∧
      t = { s with PHASE := .err, ERRC := .illegalOp } ∧ t.errFlag = true ∧ t.digest = 0#256) ∧
    (s.PHASE = .err → exec i s = .next s)) ∧
  (∀ w : CmdWord, 4 ≤ (opField w).toNat →
    (∃ sub, decode w = .reservedLow sub) ∨ ∃ sub, decode w = .reservedHigh sub) ∧
  (∀ t, exec (decode 0x400000000000000000#72) State.reset = .next t → t.status = 0x0019#16)

/-! ### Errors (60_exceptions.md) -/

/-- Error entry is precise, for every command: one that enters ERR changes PHASE and ERRC and nothing else, latches a
non-zero code, shows it in status and masks the digest (R182, R181). -/
def Obligations.ErrorEntryChangesPhaseAndCodeOnly : Prop :=
  ∀ (i : Instr) (s t : State), exec i s = .next t → s.PHASE ≠ .err → t.PHASE = .err →
    t = { s with PHASE := .err, ERRC := t.ERRC } ∧ t.ERRC ≠ .none ∧ (s.PHASE = .abs ∨ s.PHASE = .done) ∧
    t.errFlag = true ∧ t.dvalid = false ∧ t.status.extractLsb' 4 3 ≠ 0#3 ∧ t.digest = 0#256

/-- R183: the first cause that applies decides, in the order ERR drop, ILLEGAL_OP (1), SEQUENCE (4), BAD_LEN (2),
OVERFLOW (3); reset and the busy step never end in ERR. -/
def Obligations.OneErrorIsReportedInPriorityOrder : Prop :=
  (∀ (i : Instr) (s : State), s.cmdReady = true → ∃ t : State, exec i s = .next t ∧
    (if s.PHASE = .err ∧ i ≠ .nop ∧ i ≠ .init then t = s
    else if (∃ sub, i = .reservedLow sub) ∨ ∃ sub, i = .reservedHigh sub then
      t.PHASE = .err ∧ t.status.extractLsb' 4 3 = 1#3
    else if s.PHASE = .done ∧ (i = .final ∨ ∃ len data, i = .absorb len data) then
      t.PHASE = .err ∧ t.status.extractLsb' 4 3 = 4#3
    else if ∃ len data, i = .absorb len data ∧ ¬(1 ≤ len.toNat ∧ len.toNat ≤ 8) then
      t.PHASE = .err ∧ t.status.extractLsb' 4 3 = 2#3
    else if ∃ len data, i = .absorb len data ∧ 136 < s.COUNT.toNat + len.toNat then
      t.PHASE = .err ∧ t.status.extractLsb' 4 3 = 3#3
    else (i = .nop ∧ t = s) ∨ t.PHASE ≠ .err)) ∧
  (∀ s t : State, step s = .next t → s.portInput.rst = true ∨ s.busy = true → t.PHASE ≠ .err)

/-- R184 and R185: in ERR only INIT has an effect, the first code is kept, and only INIT and reset leave ERR, with S,
BUF, COUNT and ERRC cleared and PHASE = ABS. -/
def Obligations.OnlyInitAndResetLeaveTheErrorPhase : Prop :=
  (∀ (i : Instr) (s : State), s.PHASE = .err → i ≠ .init → exec i s = .next s) ∧
  (∀ s t : State, s.launched = true → s.PHASE = .err → step s = .next t →
    (t = { s with inputs := s.inputs.tail } ∧ s.portInput.rst = false ∧ s.transfers ≠ some .init) ∨
    (t = { State.reset with inputs := s.inputs.tail } ∧
      (s.portInput.rst = true ∨ s.transfers = some .init)))

/-! ### Invariants and isolation (10_state.md §7, 20_memory.md §5) -/

/-- Every edge keeps the invariants (a) to (e), from every state that meets them: the induction step of the spec's own
inference in R34, "Every state reachable from reset satisfies all of the following". -/
def Obligations.EveryStepKeepsTheInvariants : Prop :=
  ∀ s t : State, s.Inv → step s = .next t → t.Inv

/-- The reset state meets the invariants (R34, R35). -/
def Obligations.ResetStateMeetsTheInvariants : Prop := State.reset.Inv

/-- A launched core never stops: every edge leads to a next state, the core stays launched, and over any number of
edges it keeps the invariants (R180, R34). -/
def Obligations.LaunchedCoreNeverStops : Prop :=
  ∀ s : State, s.launched = true → ∀ k : Nat,
    ∃ t : State, Sys2Proof.core.run k s = .next t ∧ t.launched = true ∧ (s.Inv → t.Inv)

/-- The spec's own inference in R65: the capacity lanes change only through rounds, INIT and reset, never by host data, and no output depends on
them (nor on any lane above the fourth). -/
def Obligations.CapacityIsIsolated : Prop :=
  (∀ s t : State, step s = .next t → s.portInput.rst = false → s.busy = false → s.transfers ≠ some .init →
    ∀ i : Fin 25, 17 ≤ i.val → t.S[i] = s.S[i]) ∧
  (∀ (s : State) (S' : Lanes), (∀ i : Fin 4, S'[i.val] = s.S[i.val]) →
    { s with S := S' }.digest = s.digest ∧ { s with S := S' }.status = s.status ∧
      { s with S := S' }.cmdReady = s.cmdReady) ∧
  (∀ (s : State) (S' : Lanes) (p : PortInput) (t t' : State), (∀ i : Fin 17, S'[i.val] = s.S[i.val]) →
    s.busy = false → step (s.present p) = .next t → step ({ s with S := S' }.present p) = .next t' →
    t.digest = t'.digest ∧ t.status = t'.status ∧ ∀ i : Fin 17, t.S[i.val] = t'.S[i.val])

/-- R158: in DONE, NOP and holding keep S and the digest; INIT, reset, and ABSORB, FINAL or a reserved op, each an
error, are the only edges that change the port, and mask it. -/
def Obligations.DigestIsStableInDone : Prop :=
  ∀ s t : State, s.launched = true → s.PHASE = .done → step s = .next t →
    (s.portInput.rst = false → s.transfers = none ∨ s.transfers = some .nop →
      t.S = s.S ∧ t.digest = s.digest ∧ t.PHASE = .done) ∧
    (s.portInput.rst = true ∨ s.transfers = some .init → t.PHASE = .abs ∧ t.digest = 0#256) ∧
    (∀ i, s.transfers = some i → i ≠ .nop → i ≠ .init → t.PHASE = .err ∧ t.digest = 0#256)

/-! ### What the controller computes (41_sponge.md §5) -/

/-- In phase ABS the core holds the message absorbed so far: a legal beat extends it by the beat's bytes, at once or,
when it fills the block, when the permutation has ended (the spec's own inference in R151, "BUF[0..COUNT−1] holds
the last COUNT of those bytes in order"). -/
def Obligations.LegalBeatExtendsTheHeldMessage : Prop :=
  (∀ s : State, (s.PHASE = .abs ∨ s.PHASE = .done ∨ s.PHASE = .err) →
    ∃ t, exec .init s = .next t ∧ t.Holds []) ∧
  (∀ (s : State) (M : List Byte) (len : BitVec 4) (data : BitVec 64), s.Holds M →
    legalBeat s.COUNT.toNat len = true →
    ∃ t : State, exec (.absorb len data) s = .next t ∧
      (s.COUNT.toNat + len.toNat < 136 → t.Holds (M ++ beatBytes len data)) ∧
      (s.COUNT.toNat + len.toNat = 136 → t.PHASE = .permBlk ∧
        { t with S := keccakF t.S, PHASE := .abs }.Holds (M ++ beatBytes len data))) ∧
  (∀ (s : State) (M : List Byte), s.Holds M →
    ∃ t : State, exec .final s = .next t ∧ t.PHASE = .permFin ∧ t.RND = 0 ∧ keccakF t.S = spongeState M)

/-- The spec's own inference in R156, "The controller computes the reference function": from a state reached by reset or INIT, when the commands that transfer are legal beats with bytes M, then
FINAL, with NOPs and waiting anywhere and no reset, then once the core is ready again PHASE = DONE and digest byte i
is byte i of Keccak256(M). -/
def Obligations.ControllerComputesKeccak256 : Prop :=
  ∀ (s : State) (k : Nat) (M : List Byte), s.launched = true → s.clear = s → s.noReset k = true →
    messageOf 0 (transferred k s) = some M →
    ∃ t : State, Sys2Proof.core.run k s = .next t ∧
      (t.cmdReady = true → t.PHASE = .done ∧
        ∀ i : Fin 32, t.digest.extractLsb' (8 * i.val) 8 = (keccak256 M)[i])

/-- The spec's own inference in R157: such a run has 24 busy edges for each of N div 136 + 1 permutations. -/
def Obligations.MessageRunsOnePermutationPerBlockAndOneMore : Prop :=
  ∀ (s t : State) (k : Nat) (M : List Byte), s.launched = true → s.clear = s → s.noReset k = true →
    messageOf 0 (transferred k s) = some M → Sys2Proof.core.run k s = .next t → t.cmdReady = true →
    busyEdges k s = 24 * (M.length / 136 + 1)

/-- The spec's own inference in R211: no value depends on timing. Two runs from the same registers with the same transferred commands and resets,
NOPs and idle and busy cycles in between aside, have the same BUF, COUNT and ERRC, and when both are ready the
same S, PHASE, status and digest. -/
def Obligations.NoValueDependsOnTiming : Prop :=
  ∀ (s s' : State) (k k' : Nat), s.launched = true → { s' with inputs := s.inputs } = s →
    events k s = events k' s' →
    ∃ t t' : State, Sys2Proof.core.run k s = .next t ∧ Sys2Proof.core.run k' s' = .next t' ∧
      t.BUF = t'.BUF ∧ t.COUNT = t'.COUNT ∧ t.ERRC = t'.ERRC ∧
      (t.cmdReady = true → t'.cmdReady = true →
        t.S = t'.S ∧ t.PHASE = t'.PHASE ∧ t.status = t'.status ∧ t.digest = t'.digest)

/-- A host that holds a command until it transfers drives one edge when the core is ready, and first the edges left of
the permutation, 24 - RND, when it is busy; the command then runs at the permuted state (R204, R205, R210). -/
def Obligations.HostIssueWaitsOutThePermutation : Prop :=
  ∀ (h : HostRun) (w : CmdWord), h.core.launched = true →
    ∃ h' : HostRun, h.issue w = .ok h' ∧ h'.samples = h.samples ∧
      (h.core.busy = false → h'.edges = h.edges + 1 ∧ h'.busy = h.busy ∧
        exec (decode w) { h.core with inputs := [] } = .next h'.core) ∧
      (h.core.busy = true → h'.edges = h.edges + (24 - h.core.RND.val) + 1 ∧
        h'.busy = h.busy + (24 - h.core.RND.val) ∧
        exec (decode w) { h.core with
          S := ((List.finRange 24).drop h.core.RND.val).foldl round h.core.S, RND := 0
          PHASE := if h.core.PHASE = .permBlk then .abs else .done, inputs := [] } = .next h'.core)

/-- R80, and the spec's own inference in R212: the program HASH M, on a core in any accepting phase, samples a digest whose bytes are Keccak256(M),
in exactly E(N) edges. -/
def Obligations.HashProgramComputesKeccak256InTime : Prop :=
  ∀ (h : HostRun) (c : Nat) (M : List Byte), h.core.launched = true → h.core.cmdReady = true →
    ∃ (as : List HostAction) (h' : HostRun) (d : BitVec 256),
      assembleLine c (.hash M) = .ok (as, 0) ∧
      as = [.issue (encode .init)] ++ (expandMessage 0 M).map (fun i => .issue (encode i)) ++
        [.issue (encode .final), .waitDone, .readDigest] ∧
      HostRun.run as h = .ok h' ∧ h'.core.PHASE = .done ∧ h'.samples = h.samples ++ [.digest d] ∧
      (∀ i : Fin 32, d.extractLsb' (8 * i.val) 8 = (keccak256 M)[i]) ∧
      h'.edges = h.edges + (26 + 41 * (M.length / 136) + (M.length % 136 + 7) / 8)
end

