-- ==== Sys2Proof/Laws/State.lean ====
section
/-! SUPPORT. One lemma per field per update of State, so that no proof unfolds a record update. -/

namespace Sys2Proof.Machine

@[simp] theorem State.raiseError_S (s : State) (code : ErrorCode) : (s.raiseError code).S = s.S := rfl
@[simp] theorem State.raiseError_BUF (s : State) (code : ErrorCode) : (s.raiseError code).BUF = s.BUF := rfl
@[simp] theorem State.raiseError_COUNT (s : State) (code : ErrorCode) : (s.raiseError code).COUNT = s.COUNT := rfl
@[simp] theorem State.raiseError_RND (s : State) (code : ErrorCode) : (s.raiseError code).RND = s.RND := rfl
@[simp] theorem State.raiseError_PHASE (s : State) (code : ErrorCode) : (s.raiseError code).PHASE = .err := rfl
@[simp] theorem State.raiseError_ERRC (s : State) (code : ErrorCode) : (s.raiseError code).ERRC = code := rfl
@[simp] theorem State.raiseError_launched (s : State) (code : ErrorCode) : (s.raiseError code).launched = s.launched := rfl
@[simp] theorem State.raiseError_inputs (s : State) (code : ErrorCode) : (s.raiseError code).inputs = s.inputs := rfl

@[simp] theorem State.clear_S (s : State) : s.clear.S = zeroLanes := rfl
@[simp] theorem State.clear_BUF (s : State) : s.clear.BUF = zeroBlock := rfl
@[simp] theorem State.clear_COUNT (s : State) : s.clear.COUNT = 0#8 := rfl
@[simp] theorem State.clear_RND (s : State) : s.clear.RND = 0 := rfl
@[simp] theorem State.clear_PHASE (s : State) : s.clear.PHASE = .abs := rfl
@[simp] theorem State.clear_ERRC (s : State) : s.clear.ERRC = .none := rfl
@[simp] theorem State.clear_launched (s : State) : s.clear.launched = s.launched := rfl
@[simp] theorem State.clear_inputs (s : State) : s.clear.inputs = s.inputs := rfl

@[simp] theorem State.resetEdge_S (s : State) : s.resetEdge.S = zeroLanes := rfl
@[simp] theorem State.resetEdge_BUF (s : State) : s.resetEdge.BUF = zeroBlock := rfl
@[simp] theorem State.resetEdge_COUNT (s : State) : s.resetEdge.COUNT = 0#8 := rfl
@[simp] theorem State.resetEdge_RND (s : State) : s.resetEdge.RND = 0 := rfl
@[simp] theorem State.resetEdge_PHASE (s : State) : s.resetEdge.PHASE = .abs := rfl
@[simp] theorem State.resetEdge_ERRC (s : State) : s.resetEdge.ERRC = .none := rfl
@[simp] theorem State.resetEdge_launched (s : State) : s.resetEdge.launched = true := rfl
@[simp] theorem State.resetEdge_inputs (s : State) : s.resetEdge.inputs = s.inputs := rfl

@[simp] theorem State.stage_S (s : State) (nb : Block) (c : BitVec 8) : (s.stage nb c).S = s.S := rfl
@[simp] theorem State.stage_BUF (s : State) (nb : Block) (c : BitVec 8) : (s.stage nb c).BUF = nb := rfl
@[simp] theorem State.stage_COUNT (s : State) (nb : Block) (c : BitVec 8) : (s.stage nb c).COUNT = c := rfl
@[simp] theorem State.stage_RND (s : State) (nb : Block) (c : BitVec 8) : (s.stage nb c).RND = s.RND := rfl
@[simp] theorem State.stage_PHASE (s : State) (nb : Block) (c : BitVec 8) : (s.stage nb c).PHASE = s.PHASE := rfl
@[simp] theorem State.stage_ERRC (s : State) (nb : Block) (c : BitVec 8) : (s.stage nb c).ERRC = s.ERRC := rfl
@[simp] theorem State.stage_launched (s : State) (nb : Block) (c : BitVec 8) : (s.stage nb c).launched = s.launched := rfl
@[simp] theorem State.stage_inputs (s : State) (nb : Block) (c : BitVec 8) : (s.stage nb c).inputs = s.inputs := rfl

@[simp] theorem State.absorbBlock_S (s : State) (blk : Block) (p : Phase) : (s.absorbBlock blk p).S = absorb s.S blk := rfl
@[simp] theorem State.absorbBlock_BUF (s : State) (blk : Block) (p : Phase) : (s.absorbBlock blk p).BUF = zeroBlock := rfl
@[simp] theorem State.absorbBlock_COUNT (s : State) (blk : Block) (p : Phase) : (s.absorbBlock blk p).COUNT = 0#8 := rfl
@[simp] theorem State.absorbBlock_RND (s : State) (blk : Block) (p : Phase) : (s.absorbBlock blk p).RND = 0 := rfl
@[simp] theorem State.absorbBlock_PHASE (s : State) (blk : Block) (p : Phase) : (s.absorbBlock blk p).PHASE = p := rfl
@[simp] theorem State.absorbBlock_ERRC (s : State) (blk : Block) (p : Phase) : (s.absorbBlock blk p).ERRC = s.ERRC := rfl
@[simp] theorem State.absorbBlock_launched (s : State) (blk : Block) (p : Phase) : (s.absorbBlock blk p).launched = s.launched := rfl
@[simp] theorem State.absorbBlock_inputs (s : State) (blk : Block) (p : Phase) : (s.absorbBlock blk p).inputs = s.inputs := rfl

@[simp] theorem State.busyStep_S (s : State) : s.busyStep.S = round s.S s.RND := rfl
@[simp] theorem State.busyStep_BUF (s : State) : s.busyStep.BUF = s.BUF := rfl
@[simp] theorem State.busyStep_COUNT (s : State) : s.busyStep.COUNT = s.COUNT := rfl
@[simp] theorem State.busyStep_RND (s : State) : s.busyStep.RND = nextRound s.RND := rfl
@[simp] theorem State.busyStep_PHASE (s : State) : s.busyStep.PHASE = if s.RND.val < 23 then s.PHASE else s.PHASE.afterPermutation := rfl
@[simp] theorem State.busyStep_ERRC (s : State) : s.busyStep.ERRC = s.ERRC := rfl
@[simp] theorem State.busyStep_launched (s : State) : s.busyStep.launched = s.launched := rfl
@[simp] theorem State.busyStep_inputs (s : State) : s.busyStep.inputs = s.inputs := rfl

@[simp] theorem State.takeInput_S (s : State) : s.takeInput.S = s.S := rfl
@[simp] theorem State.takeInput_BUF (s : State) : s.takeInput.BUF = s.BUF := rfl
@[simp] theorem State.takeInput_COUNT (s : State) : s.takeInput.COUNT = s.COUNT := rfl
@[simp] theorem State.takeInput_RND (s : State) : s.takeInput.RND = s.RND := rfl
@[simp] theorem State.takeInput_PHASE (s : State) : s.takeInput.PHASE = s.PHASE := rfl
@[simp] theorem State.takeInput_ERRC (s : State) : s.takeInput.ERRC = s.ERRC := rfl
@[simp] theorem State.takeInput_launched (s : State) : s.takeInput.launched = s.launched := rfl
@[simp] theorem State.takeInput_inputs (s : State) : s.takeInput.inputs = s.inputs.tail := rfl

@[simp] theorem State.present_S (s : State) (p : PortInput) : (s.present p).S = s.S := rfl
@[simp] theorem State.present_BUF (s : State) (p : PortInput) : (s.present p).BUF = s.BUF := rfl
@[simp] theorem State.present_COUNT (s : State) (p : PortInput) : (s.present p).COUNT = s.COUNT := rfl
@[simp] theorem State.present_RND (s : State) (p : PortInput) : (s.present p).RND = s.RND := rfl
@[simp] theorem State.present_PHASE (s : State) (p : PortInput) : (s.present p).PHASE = s.PHASE := rfl
@[simp] theorem State.present_ERRC (s : State) (p : PortInput) : (s.present p).ERRC = s.ERRC := rfl
@[simp] theorem State.present_launched (s : State) (p : PortInput) : (s.present p).launched = s.launched := rfl
@[simp] theorem State.present_inputs (s : State) (p : PortInput) : (s.present p).inputs = p :: s.inputs.tail := rfl

@[simp] theorem State.reset_S : State.reset.S = zeroLanes := rfl
@[simp] theorem State.reset_BUF : State.reset.BUF = zeroBlock := rfl
@[simp] theorem State.reset_COUNT : State.reset.COUNT = 0#8 := rfl
@[simp] theorem State.reset_RND : State.reset.RND = 0 := rfl
@[simp] theorem State.reset_PHASE : State.reset.PHASE = .abs := rfl
@[simp] theorem State.reset_ERRC : State.reset.ERRC = .none := rfl
@[simp] theorem State.reset_launched : State.reset.launched = true := rfl
@[simp] theorem State.reset_inputs : State.reset.inputs = [] := rfl

/-- INIT and a reset edge reach the same registers (R147, R200). -/
theorem State.clear_of_launched (s : State) (h : s.launched = true) : s.resetEdge = s.clear := by
  simp [State.resetEdge, State.clear, h]

theorem State.onTransfer_ready (s act : State) (h : s.cmdReady = true) : s.onTransfer act = act := by
  simp [State.onTransfer, h]

theorem State.onTransfer_busy (s act : State) (h : s.cmdReady = false) : s.onTransfer act = s := by
  simp [State.onTransfer, h]

/-- `cmd_ready` is 1 exactly in ABS, DONE and ERR (R26, R30). -/
theorem State.cmdReady_iff (s : State) : s.cmdReady = true ↔ s.PHASE = .abs ∨ s.PHASE = .done ∨ s.PHASE = .err := by
  cases h : s.PHASE <;> simp [State.cmdReady, State.busy, Phase.busy, h]

/-- `busy` is 1 exactly in PERM_BLK and PERM_FIN (R30). -/
theorem State.busy_iff (s : State) : s.busy = true ↔ s.PHASE = .permBlk ∨ s.PHASE = .permFin := by
  cases h : s.PHASE <;> simp [State.busy, Phase.busy, h]

end Sys2Proof.Machine
end

