-- ==== Sys2Proof/Laws/Ops.lean ====
section
/-! SUPPORT. What each datapath function gives at one lane or one byte, so that no proof unfolds them. -/

namespace Sys2Proof.Machine

@[simp] theorem zeroLanes_getElem (i : Nat) (h : i < 25) : zeroLanes[i] = 0#64 := by simp [zeroLanes]

@[simp] theorem zeroBlock_getElem (k : Nat) (h : k < 136) : zeroBlock[k] = 0#8 := by simp [zeroBlock]

theorem bytesOfLane_getElem (L : Lane) (j : Nat) (h : j < 8) : (bytesOfLane L)[j] = L.extractLsb' (8 * j) 8 := by
  simp [bytesOfLane]

theorem writeBeat_getElem (buf : Block) (count : Nat) (len : BitVec 4) (data : BitVec 64) (k : Nat) (h : k < 136) :
    (writeBeat buf count len data)[k] =
      if count ≤ k ∧ k < count + len.toNat then beatByte data (k - count) else buf[k] := by
  simp [writeBeat]

theorem blockOf_getElem (bs : List Byte) (k : Nat) (h : k < 136) : (blockOf bs)[k] = bs.getD k 0#8 := by
  simp [blockOf]

/-- A rate lane after an absorption (R141). -/
theorem absorb_getElem_rate (S : Lanes) (blk : Block) (w : Nat) (h : w < 17) :
    (absorb S blk)[w] = S[w] ^^^ blockLane blk ⟨w, h⟩ := by
  simp [absorb, h]

/-- A capacity lane after an absorption (R141, R65). -/
theorem absorb_getElem_capacity (S : Lanes) (blk : Block) (w : Nat) (h : 17 ≤ w) (h' : w < 25) :
    (absorb S blk)[w] = S[w] := by
  simp [absorb, Nat.not_lt.mpr h]

/-- The padded block at one byte (R142). -/
theorem pad_getElem (buf : Block) (count k : Nat) (h : k < 136) :
    (pad buf count)[k] =
      (buf[k] ^^^ (if k = count then 0x01#8 else 0#8)) ^^^ (if k = 135 then 0x80#8 else 0#8) := by
  by_cases hk : k = count <;> simp [pad, hk]

theorem theta_getElem (S : Lanes) (i : Nat) (h : i < 25) :
    (theta S)[i] = S[i] ^^^ thetaDelta S ⟨i % 5, Nat.mod_lt _ (by decide)⟩ := by
  simp [theta]

theorem chi_getElem (S : Lanes) (i : Nat) (h : i < 25) :
    (chi S)[i] = S[i] ^^^ (~~~S[5 * (i / 5) + (i % 5 + 1) % 5] &&& S[5 * (i / 5) + (i % 5 + 2) % 5]) := by
  simp [chi]

theorem iota_getElem (S : Lanes) (r : Fin 24) (i : Nat) (h : i < 25) :
    (iota S r)[i] = if i = 0 then S[0] ^^^ RC[r] else S[i] := by
  by_cases hi : i = 0
  · subst hi
    simp [iota]
  · simp [iota, hi, Ne.symm hi]

/-- A whole permutation is the rounds from round 0 on (R111). -/
theorem keccakF_eq_roundsFrom (S : Lanes) : keccakF S = roundsFrom 0 S := rfl

/-- The rounds from r on begin with round r (R113). -/
theorem roundsFrom_eq_round (r : Fin 24) (S : Lanes) : roundsFrom r.val S = roundsFrom (r.val + 1) (round S r) := by
  have h : (List.finRange 24).drop r.val = r :: (List.finRange 24).drop (r.val + 1) := by
    rw [List.drop_eq_getElem_cons (by simp)]
    simp
  simp [roundsFrom, h]

/-- Nothing is left behind the last round (R154). -/
theorem roundsFrom_end (S : Lanes) : roundsFrom 24 S = S := rfl

end Sys2Proof.Machine
end

