-- ==== Sys2Proof/Laws/PerInstr.lean ====
section
/-! SUPPORT. A statement about every command as syntax: its word matches its own row of the opcode table and no
other (R71). -/

namespace Sys2Proof.Laws.TableRow

/-- The rows that cover the command's word are exactly its own. -/
def Statement (i : Instr) : Prop := ∀ r ∈ opcodeTable, r.covers (encode i) = decide (r.mnemonic = i.mnemonic)

theorem nop : Statement .nop := by unfold Statement; decide

theorem init : Statement .init := by unfold Statement; decide

/-- Under a mask of the op field only the op field matters. -/
theorem packFields_and_mask (op len m : BitVec 4) (data : BitVec 64) :
    packFields op len data &&& (m ++ 0#4 ++ 0#64) = (op &&& m) ++ 0#4 ++ 0#64 := by
  have h : ((op ++ len) ++ data) &&& ((m ++ 0#4) ++ 0#64) = ((op ++ len) &&& (m ++ 0#4)) ++ (data &&& 0#64) :=
    BitVec.and_append
  have h' : (op ++ len) &&& (m ++ 0#4) = (op &&& m) ++ (len &&& 0#4) := BitVec.and_append
  rw [packFields, h, h', BitVec.and_zero, BitVec.and_zero]

/-- A row whose mask lies in the op field covers a word exactly when the op field matches. -/
theorem covers_packFields (name : String) (p m op len : BitVec 4) (data : BitVec 64) :
    OpcodeRow.covers ⟨name, p ++ 0#4 ++ 0#64, m ++ 0#4 ++ 0#64⟩ (packFields op len data) =
      decide (op &&& m = p) := by
  have h : (op &&& m) ++ 0#4 ++ 0#64 = p ++ 0#4 ++ 0#64 ↔ op &&& m = p := by
    constructor
    · intro e
      exact (BitVec.append_left_inj _).mp ((BitVec.append_left_inj _).mp e)
    · rintro rfl; rfl
  simp only [OpcodeRow.covers, packFields_and_mask, h]

theorem absorb (len : BitVec 4) (data : BitVec 64) : Statement (.absorb len data) := by
  intro r hr
  have h (name p m) := covers_packFields name p m 0x2#4 len data
  simp only [opcodeTable, List.mem_cons, List.not_mem_nil, or_false] at hr
  rcases hr with h' | h' | h' | h' | h' | h' <;> rw [h']
  · exact (h _ 0x0#4 0xF#4).trans (by simp [Instr.mnemonic])
  · exact (h _ 0x1#4 0xF#4).trans (by simp [Instr.mnemonic])
  · exact (h _ 0x2#4 0xF#4).trans (by simp [Instr.mnemonic])
  · exact (h _ 0x3#4 0xF#4).trans (by simp [Instr.mnemonic])
  · exact (h _ 0x4#4 0xC#4).trans (by simp [Instr.mnemonic])
  · exact (h _ 0x8#4 0x8#4).trans (by simp [Instr.mnemonic])

theorem final : Statement .final := by unfold Statement; decide

theorem reservedLow (sub : BitVec 2) : Statement (.reservedLow sub) := by
  revert sub; unfold Statement; decide

theorem reservedHigh (sub : BitVec 3) : Statement (.reservedHigh sub) := by
  revert sub; unfold Statement; decide

end Sys2Proof.Laws.TableRow
end

