-- ==== Sys2Proof/Laws/Step.lean ====
section
/-! SUPPORT. Inversion lemmas: everything a command and a clock edge can do, said once. -/

namespace Sys2Proof.Machine

/-- A transferred ABSORB in phase ABS does one of four things (R148). -/
theorem absorbBeat_cases (s : State) (len : BitVec 4) (data : BitVec 64) :
    (legalLen len = false ∧ absorbBeat s len data = s.raiseError .badLen) ∨
    (legalLen len = true ∧ 136 < s.COUNT.toNat + len.toNat ∧ absorbBeat s len data = s.raiseError .overflow) ∨
    (legalLen len = true ∧ s.COUNT.toNat + len.toNat = 136 ∧
      absorbBeat s len data = s.absorbBlock (writeBeat s.BUF s.COUNT.toNat len data) .permBlk) ∨
    (legalLen len = true ∧ s.COUNT.toNat + len.toNat < 136 ∧
      absorbBeat s len data = s.stage (writeBeat s.BUF s.COUNT.toNat len data) (s.COUNT + len.setWidth 8)) := by
  unfold absorbBeat crossesBlock fillsBlock
  rcases hl : legalLen len with _ | _
  · simp
  · rcases Nat.lt_trichotomy (s.COUNT.toNat + len.toNat) 136 with h | h | h
    · simp [h, Nat.not_lt.mpr h.le, h.ne]
    · simp [h]
    · simp [h]

/-- Every command answers one of these states, and which one its rule says (R146 to R150). A command raises an
error only in ABS or DONE, stages and absorbs only in ABS, and only INIT clears. -/
theorem exec_cases {i : Instr} {s : State} {o : Host.Outcome State Fault Refusal} (h : exec i s = o) :
    (o = .next s ∧ (i = .nop ∨ s.busy = true ∨ (s.PHASE = .err ∧ i ≠ .init))) ∨
    (o = .next s.clear ∧ i = .init ∧ s.busy = false) ∨
    (∃ code, o = .next (s.raiseError code) ∧ code ≠ .none ∧ (s.PHASE = .abs ∨ s.PHASE = .done) ∧
      i ≠ .nop ∧ i ≠ .init) ∨
    (∃ len data, i = .absorb len data ∧ s.PHASE = .abs ∧ legalLen len = true ∧
      s.COUNT.toNat + len.toNat = 136 ∧
      o = .next (s.absorbBlock (writeBeat s.BUF s.COUNT.toNat len data) .permBlk)) ∨
    (∃ len data, i = .absorb len data ∧ s.PHASE = .abs ∧ legalLen len = true ∧
      s.COUNT.toNat + len.toNat < 136 ∧
      o = .next (s.stage (writeBeat s.BUF s.COUNT.toNat len data) (s.COUNT + len.setWidth 8))) ∨
    (i = .final ∧ s.PHASE = .abs ∧ o = .next (s.absorbBlock (pad s.BUF s.COUNT.toNat) .permFin)) := by
  subst h
  cases hp : s.PHASE <;> cases i <;>
    simp [exec, execNop, execInit, execAbsorb, execFinal, execReservedLow, execReservedHigh, reservedOp,
      State.onTransfer, State.cmdReady, State.busy, Phase.busy, hp]
  case abs.absorb len data =>
    rcases absorbBeat_cases s len data with h | h | h | h
    · exact .inl ⟨.badLen, h.2, by decide⟩
    · exact .inl ⟨.overflow, h.2.2, by decide⟩
    · exact .inr (.inl h)
    · exact .inr (.inr h)
  all_goals first
    | exact ⟨.illegalOp, rfl, by decide⟩
    | exact ⟨.sequence, rfl, by decide⟩

/-- Every edge takes one of five actions (R144). -/
theorem step_cases {s : State} {o : Host.Outcome State Fault Refusal} (h : step s = o) :
    (s.portInput.rst = true ∧ o = .next s.takeInput.resetEdge) ∨
    (s.portInput.rst = false ∧ s.launched = false ∧ o = .fault .registersUnspecified) ∨
    (s.portInput.rst = false ∧ s.launched = true ∧ s.busy = true ∧ o = .next s.takeInput.busyStep) ∨
    (s.portInput.rst = false ∧ s.launched = true ∧ s.busy = false ∧ s.portInput.cmdValid = true ∧
      o = exec (decode s.portInput.cmd) s.takeInput) ∨
    (s.portInput.rst = false ∧ s.launched = true ∧ s.busy = false ∧ s.portInput.cmdValid = false ∧
      o = .next s.takeInput) := by
  subst h
  unfold step State.edgeAction
  cases s.portInput.rst <;> cases s.launched <;> cases s.busy <;> cases s.portInput.cmdValid <;> simp

/-- A run of no edges. -/
theorem run_zero (s : State) : Sys2Proof.core.run 0 s = .next s := rfl

/-- A run goes on from the next state of its first edge. -/
theorem run_succ_of_next {s t : State} (h : step s = .next t) (k : Nat) :
    Sys2Proof.core.run (k + 1) s = Sys2Proof.core.run k t := by
  have h' : Sys2Proof.core.step s = .next t := h
  simp only [Host.Core.run, h']

/-- A run of `j + k` edges is a run of k edges behind a run of j edges. -/
theorem run_add_of_next {s t : State} {j : Nat} (h : Sys2Proof.core.run j s = .next t) (k : Nat) :
    Sys2Proof.core.run (j + k) s = Sys2Proof.core.run k t := by
  induction j generalizing s with
  | zero =>
    cases h
    simp
  | succ j ih =>
    rw [Nat.add_right_comm]
    cases hs : Sys2Proof.core.step s with
    | next u =>
      simp only [Host.Core.run, hs] at h ⊢
      exact ih h
    | fault r => simp [Host.Core.run, hs] at h
    | refused r => simp [Host.Core.run, hs] at h

theorem transferred_succ_of_next {s t : State} (h : step s = .next t) (k : Nat) :
    transferred (k + 1) s = s.transfers.toList ++ transferred k t := by
  simp only [transferred, h]

theorem busyEdges_succ_of_next {s t : State} (h : step s = .next t) (k : Nat) :
    busyEdges (k + 1) s = (if s.edgeAction = .busy then 1 else 0) + busyEdges k t := by
  simp only [busyEdges, h]

theorem events_succ_of_next {s t : State} (h : step s = .next t) (k : Nat) :
    events (k + 1) s = s.event.toList ++ events k t := by
  simp only [events, h]

end Sys2Proof.Machine
end

