-- ==== Sys2Proof/Tests/Slice0.lean ====
section
/-! SUPPORT. The model's own tests. Expected values come from spec/95_test_vectors.md (ids V-..., X-..., P...) and from
the encodings of spec/30_encoding.md, never from the model. The `witness_` theorems show for each obligation with
hypotheses a concrete case that meets them. -/

namespace Sys2Proof.Tests

open Sys2Proof Sys2Proof.Machine

/-- The next state of an outcome, if it is one. -/
def nextOf (o : Host.Outcome State Fault Refusal) : Option State :=
  match o with
  | .next t => some t
  | .fault _ => none
  | .refused _ => none

/-- Phase, COUNT, ERRC and status behind a step that runs the word `w`, as the rows of 95_test_vectors.md §2.8. -/
def afterWord (s : State) (w : CmdWord) : Option (Phase × Nat × ErrorCode × BitVec 16) :=
  (nextOf (step (s.withFetchWord 72 w.toNat))).map fun t => (t.PHASE, t.COUNT.toNat, t.ERRC, t.status)

/-- In ABS with `c` message bytes of zero. -/
def atCount (c : Nat) : State := { State.reset with COUNT := BitVec.ofNat 8 c }

/-- In DONE. -/
def inDone : State := { State.reset with PHASE := .done, S := zeroLanes.set 0 0x1122#64 }

/-- In ERR behind an OVERFLOW at COUNT 131. -/
def inErr : State := { State.reset with PHASE := .err, ERRC := .overflow, COUNT := 131#8 }

/-- Permuting, round r next. -/
def permuting (p : Phase) (r : Fin 24) : State := { State.reset with PHASE := p, RND := r }

/-- Port values: nothing, a command, reset. -/
def idle : PortInput := idlePort
def command (w : CmdWord) : PortInput := ⟨false, true, w⟩
def resetInput : PortInput := ⟨true, true, 0x100000000000000000#72⟩

/-- The state with these port values to come. -/
def driven (s : State) (ps : List PortInput) : State := { s with inputs := ps }

/-! ### Well-formedness and decoding -/

theorem test_wellFormed_refuses_a_bit_above_len : (Instr.absorb 3#4 0x01636261#64).wellFormed = false := by decide
theorem test_wellFormed_refuses_data_without_len : (Instr.absorb 0#4 0x1#64).wellFormed = false := by decide
theorem test_wellFormed_takes_a_full_beat : (Instr.absorb 8#4 0xFFFFFFFFFFFFFFFF#64).wellFormed = true := by decide

/-- V-C2: op 0000, every ignored bit set. -/
theorem test_decode_nop : decode 0x0FFFFFFFFFFFFFFFFF#72 = .nop := by decide
/-- P2: op 0001. -/
theorem test_decode_init : decode 0x100000000000000000#72 = .init := by decide
/-- V-C4: op 0010, len 0011, data 0x636261 under junk in the ignored bits. -/
theorem test_decode_absorb : decode 0x23FFFFFFFFFF636261#72 = .absorb 3#4 0x636261#64 := by decide
/-- P1: op 0011. -/
theorem test_decode_final : decode 0x300000000000000000#72 = .final := by decide
/-- V-C13: op 0100, and the last of its row, op 0111. -/
theorem test_decode_reservedLow : decode 0x400000000000000000#72 = .reservedLow 0#2 ∧
    decode 0x700000000000000001#72 = .reservedLow 3#2 := by decide
/-- V-C14: op 1111, and the first of its row, op 1000. -/
theorem test_decode_reservedHigh : decode 0xF00000000000000000#72 = .reservedHigh 7#3 ∧
    decode 0x800000000000000000#72 = .reservedHigh 0#3 := by decide
/-- R76: eight bytes are no command. -/
theorem test_decode_rejects_eight_bytes : decodeBytes (List.replicate 8 0#8) = .error (.notNineBytes 8) := by decide
/-- The listing of P4: `ABSORB 7, 0x86858483828180`. -/
theorem test_encode_absorb : encode (.absorb 7#4 0x86858483828180#64) = 0x270086858483828180#72 := by decide
theorem test_decodeTableWord : decodeTableWord 72 0x230000000000636261 = some (.absorb 3#4 0x636261#64) := by decide

/-! ### Commands (95_test_vectors.md §2.8) -/

/-- V-C1 and V-C19: NOP after reset and in DONE. -/
theorem test_nop : afterWord .reset 0x000000000000000000#72 = some (.abs, 0, .none, 0x0001#16) ∧
    afterWord inDone 0x000000000000000000#72 = some (.done, 0, .none, 0x0005#16) := by decide
/-- V-C16: INIT leaves ERR. -/
theorem test_init_leaves_err : afterWord inErr 0x100000000000000000#72 = some (.abs, 0, .none, 0x0001#16) := by decide
/-- INIT in DONE discards the digest (R147, example). -/
theorem test_init_discards_the_digest :
    (nextOf (exec .init inDone)).map State.digest = some 0#256 := by decide
/-- V-C3: three bytes staged. -/
theorem test_absorb_stages : afterWord .reset 0x230000000000636261#72 = some (.abs, 3, .none, 0x0301#16) ∧
    (nextOf (exec (.absorb 3#4 0x636261#64) .reset)).map (fun t => (t.BUF[0], t.BUF[1], t.BUF[2], t.BUF[3])) =
      some (0x61#8, 0x62#8, 0x63#8, 0x00#8) := by decide
/-- V-C5 to V-C9: the operand errors and the full block. -/
theorem test_absorb_corners :
    [afterWord .reset 0x200000000000000000#72, afterWord .reset 0x290000000000000000#72,
     afterWord (atCount 131) 0x280000000000000000#72, afterWord (atCount 131) 0x250000000000000000#72,
     afterWord (atCount 135) 0x210000000000000000#72] =
    [some (.err, 0, .badLen, 0x0029#16), some (.err, 0, .badLen, 0x0029#16), some (.err, 131, .overflow, 0x8339#16),
     some (.permBlk, 0, .none, 0x0002#16), some (.permBlk, 0, .none, 0x0002#16)] := by decide +kernel
/-- V-C10 and P1: FINAL of the empty message. -/
theorem test_final_of_the_empty_message :
    afterWord .reset 0x300000000000000000#72 = some (.permFin, 0, .none, 0x0002#16) ∧
    (nextOf (exec .final .reset)).map (fun t => (t.S[0], t.S[1], t.S[16], t.S[17])) =
      some (0x0000000000000001#64, 0#64, 0x8000000000000000#64, 0#64) := by decide +kernel
/-- V-C11, V-C12 and V-C15: ABSORB and FINAL in DONE, FINAL in ERR. -/
theorem test_out_of_sequence :
    afterWord inDone 0x210000000000000000#72 = some (.err, 0, .sequence, 0x0049#16) ∧
    afterWord inDone 0x300000000000000000#72 = some (.err, 0, .sequence, 0x0049#16) ∧
    afterWord inErr 0x300000000000000000#72 = some (.err, 131, .overflow, 0x8339#16) := by decide
/-- V-C13 and V-C15. -/
theorem test_reservedLow : afterWord .reset 0x400000000000000000#72 = some (.err, 0, .illegalOp, 0x0019#16) ∧
    afterWord inErr 0x400000000000000000#72 = some (.err, 131, .overflow, 0x8339#16) := by decide
/-- V-C14: priority over SEQUENCE. -/
theorem test_reservedHigh : afterWord inDone 0xF00000000000000000#72 = some (.err, 0, .illegalOp, 0x0019#16) := by
  decide

/-! ### Edges -/

/-- V-C17: nothing transfers while permuting. -/
theorem test_busy_ignores_commands :
    (nextOf (step (driven (permuting .permBlk 4) [command 0x100000000000000000#72]))).map
      (fun t => (t.PHASE, t.RND, t.status)) = some (.permBlk, 5, 0x0002#16) := by decide
/-- V-C18: reset aborts a permutation. -/
theorem test_reset_aborts :
    nextOf (step (driven (permuting .permFin 5) [resetInput])) = some .reset := by decide +kernel
/-- R154: round 23 ends in DONE. -/
theorem test_round_23_ends : (nextOf (step (permuting .permFin 23))).map (fun t => (t.PHASE, t.RND, t.status)) =
    some (.done, 0, 0x0005#16) := by decide

/-! ### Datapath -/

/-- V-RL3, V-RL4, V-RL7. -/
theorem test_rotl64 : rotl64 0x0123456789ABCDEF#64 ⟨4, by decide⟩ = 0x123456789ABCDEF0#64 ∧
    rotl64 1#64 ⟨63, by decide⟩ = 0x8000000000000000#64 ∧
    rotl64 0x8000000000000001#64 ⟨62, by decide⟩ = 0x6000000000000000#64 := by decide
/-- V-RP2, four lanes. -/
theorem test_rhoPi : let B := rhoPi (Vector.ofFn fun i => BitVec.ofNat 64 i.val)
    (B[1], B[9], B[19], B[24]) =
      (0x0000600000000000#64, 0xC000000000000002#64, 0x1700000000000000#64, 0x0000000000000054#64) := by
  decide +kernel
/-- V-RD1, four lanes. -/
theorem test_round : let A := round (round zeroLanes 0) 1
    (A[0], A[4], A[15], A[22]) =
      (0x0000000000008083#64, 0x0000100000008000#64, 0x0000000010000400#64, 0x0000010000000004#64) := by
  decide +kernel
/-- X-PAD135: the last lane of the padded block of 135 bytes i mod 256. -/
theorem test_pad_135 : blockLane (pad (Vector.ofFn fun k => if k.val < 135 then BitVec.ofNat 8 k.val else 0#8) 135) 16 =
    0x8186858483828180#64 := by decide +kernel
/-- X-KAT1: the first four and the last digest bytes of "abc". -/
theorem test_keccak256_abc : let d := keccak256 [0x61#8, 0x62#8, 0x63#8]
    (d[0], d[1], d[2], d[3], d[31]) = (0x4e#8, 0x03#8, 0x65#8, 0x7a#8, 0x45#8) := by decide +kernel

/-! ### Assembler and host -/

/-- R77: the lines of P2 and its listing. -/
theorem test_parse_absorb : parseLine "  absorb 3, 0x636261   ; 'a' 'b' 'c'".toList = .ok (some (.absorb 3 0x636261)) := by
  decide +kernel
theorem test_parse_message : parseLine "HASH hex:616263".toList = .ok (some (.hash [0x61#8, 0x62#8, 0x63#8])) := by
  decide +kernel
theorem test_parse_refuses_reserved : parseLine "RESERVED".toList = .error .unknownMnemonic := by decide +kernel
/-- The listing of P4. -/
theorem test_listing : listing (encode (.absorb 7#4 0x86858483828180#64)) = "0x270086858483828180".toList := by
  decide +kernel
theorem test_assemble_refuses_wide_data : assembleLine 0 (.absorb 1 0x100) = .error .dataTooWide := by decide
/-- R212: E(3) = 27, and one permutation (R157). -/
theorem test_hash_takes_27_edges :
    (match assembleLine 0 (.hash [0x61#8, 0x62#8, 0x63#8]) with
      | .ok (as, _) =>
        (match HostRun.run as (.start .reset) with
          | .ok h => some (h.edges, h.busy)
          | .error _ => none)
      | .error _ => none) = some (27, 24) := by decide +kernel

/-! ### Witnesses of hypotheses -/

theorem witness_DecodeOfEncodeIsTheCommand :
    (Instr.absorb 3#4 0x636261#64).wellFormed = true ∧ (Instr.absorb 8#4 0xFFFFFFFFFFFFFFFF#64).wellFormed = true ∧
    (Instr.absorb 0#4 0#64).wellFormed = true ∧ (Instr.absorb 15#4 0xFFFFFFFFFFFFFFFF#64).wellFormed = true ∧
    (Instr.reservedHigh 7#3).wellFormed = true := by decide

theorem witness_EncodeOfDecodeClearsTheIgnoredBits :
    opField 0x28FFFFFFFFFFFFFFFF#72 = 0x2#4 ∧ (63 : Nat) < 8 * (lenField 0x28FFFFFFFFFFFFFFFF#72).toNat := by decide

theorem witness_IgnoredBitsNeverChangeAnything :
    (opField 0x23FFFFFFFFFF636261#72 = opField 0x230000000000636261#72 ∧
      lenField 0x23FFFFFFFFFF636261#72 = lenField 0x230000000000636261#72 ∧
      ∀ k : Fin 64, k.val < 8 * (lenField 0x23FFFFFFFFFF636261#72).toNat →
        (0x23FFFFFFFFFF636261#72).getLsbD k.val = (0x230000000000636261#72).getLsbD k.val) ∧
    (opField 0x0FFFFFFFFFFFFFFFFF#72 = opField 0x000000000000000000#72 ∧ opField 0x0FFFFFFFFFFFFFFFFF#72 ≠ 0x2#4) ∧
    (Instr.absorb 3#4 0x636261#64).wellFormed = true ∧ 8 * (3#4 : BitVec 4).toNat ≤ 24 := by decide

theorem witness_EveryWordIsExactlyOneRow :
    opField 0x0FFFFFFFFFFFFFFFFF#72 = 0x0#4 ∧ opField 0x100000000000000000#72 = 0x1#4 ∧
    opField 0x200000000000000000#72 = 0x2#4 ∧ opField 0x300000000000000000#72 = 0x3#4 ∧
    (opField 0x400000000000000000#72).toNat = 4 ∧ (opField 0x700000000000000000#72).toNat = 7 ∧
    (opField 0x800000000000000000#72).toNat = 8 ∧ (opField 0xF00000000000000000#72).toNat = 15 := by decide

/-- A message that meets a block boundary: fill position 135. -/
theorem witness_AbsorbMsgExpandsIntoLegalBeats :
    (135 : Nat) < 136 ∧ (expandMessage 135 [0x61#8, 0x62#8]).length = 2 ∧ (0 : Nat) < (List.replicate 8 0#8).length / 8 := by
  decide

theorem witness_AssemblerRefusesIllegalBeats :
    ¬(1 ≤ 0 ∧ 0 ≤ 8) ∧ ¬(1 ≤ 9 ∧ 9 ≤ 8) ∧ 2 ^ (8 * 1) ≤ 256 ∧ 255 < 2 ^ (8 * 1) ∧ 2 ^ 64 - 1 < 2 ^ (8 * 8) := by decide

theorem witness_RotateLeftMovesEveryBit : (1 ≤ 63 ∧ 63 ≤ 63) ∧ (63 : Nat) < 64 := by decide

theorem witness_PaddingIsMultiRate :
    (135 ≤ 135 ∧ 134 < 135 ∧ 0 < 135) ∧ ∀ k : Fin 136, 0 ≤ k.val → zeroBlock[k] = 0#8 := by decide

theorem witness_AbsorbXorsTheRateLanesOnly : 17 ≤ (17 : Fin 25).val ∧ 17 ≤ (24 : Fin 25).val := by decide

theorem witness_AbsorptionXorsBlockBytesIntoStateBytes : 136 ≤ (136 : Fin 200).val ∧ 136 ≤ (199 : Fin 200).val := by
  decide

theorem witness_RhoPiKeepsLaneZero : (1 : Fin 25) ≠ 0 ∧ (24 : Fin 25) ≠ 0 := by decide

theorem witness_LanePackingIsLittleEndian : inDone.PHASE = .done := by decide

theorem witness_DigestPortShowsTheFirstFourLanesInDone :
    inDone.PHASE = .done ∧ { inDone with S := inDone.S.set 4 7#64 }.PHASE = inDone.PHASE ∧
    ∀ i : Fin 4, inDone.S[i.val] = { inDone with S := inDone.S.set 4 7#64 }.S[i.val] := by decide +kernel

theorem witness_PilnVisitsEveryOtherLaneOnce : (24 : Fin 25) ≠ 0 ∧ PILN[(10 : Fin 24)] = 24 := by decide

theorem witness_IotaChangesLaneZeroOnly : (24 : Fin 25) ≠ 0 := by decide

theorem witness_ChiMixesEveryRow :
    (∀ i : Fin 5, zeroLanes[5 * (4 : Fin 5).val + i.val] = 0#64) ∧
    (∀ i : Fin 5, (Vector.replicate 25 (BitVec.allOnes 64))[5 * (4 : Fin 5).val + i.val] = BitVec.allOnes 64) ∧
    (∀ i : Fin 5, zeroLanes[5 * (0 : Fin 5).val + i.val].getLsbD 63 =
      (zeroLanes.set 5 1#64)[5 * (0 : Fin 5).val + i.val].getLsbD 63) := by decide

theorem witness_ResetEdgeLoadsTheResetValues :
    (driven (permuting .permBlk 23) [resetInput, command 0#72]).portInput.rst = true ∧
    (driven State.reset [command 0#72]).portInput.rst = false ∧
    (driven State.reset [command 0#72]).portInput.cmdValid = true ∧
    inErr.cmdReady = true ∧ inErr.launched = true := by decide

theorem witness_ResetAbortsAndHoldingItIsIdempotent :
    (1 : Nat) < (driven inDone [resetInput, resetInput, idle]).inputs.length ∧
    ∀ p ∈ (driven inDone [resetInput, resetInput, idle]).inputs.take 2, p.rst = true := by decide

theorem witness_NothingRunsBeforeTheFirstReset :
    { inErr with launched := false }.launched = false ∧
    (driven { inErr with launched := false } [command 0#72]).portInput.rst = false ∧
    (driven { inErr with launched := false } [resetInput]).portInput.rst = true := by decide

theorem witness_StepRunsTheDecodedCommand :
    inDone.launched = true ∧ inDone.cmdReady = true ∧
    (driven inDone [command 0x100000000000000000#72, idle]).inputs = [command 0x100000000000000000#72, idle] ∧
    (command 0x100000000000000000#72).rst = false ∧ (command 0x100000000000000000#72).cmdValid = true ∧
    decode (command 0x100000000000000000#72).cmd = .init := by decide

theorem witness_EdgeTakesOneActionInPriorityOrder :
    State.reset.launched = true ∧ (driven inErr [resetInput]).portInput.rst = true ∧
    (permuting .permBlk 22).RND.val < 23 ∧ (permuting .permFin 0).RND.val < 23 ∧
    (permuting .permBlk 23).RND.val = 23 ∧ (permuting .permFin 23).PHASE = .permFin ∧
    (driven inDone [command 0#72]).portInput.cmdValid = true ∧ (driven inDone [idle]).portInput.cmdValid = false ∧
    ¬(inDone.PHASE = .permBlk ∨ inDone.PHASE = .permFin) := by decide

theorem witness_CommandTransfersExactlyWhenReady :
    (driven inDone [command 0x300000000000000000#72]).transfers = some .final ∧
    (permuting .permBlk 23).launched = true ∧ (permuting .permBlk 23).cmdReady = false ∧ inDone.cmdReady = true := by
  decide

theorem witness_CommandsChangeNothingWhileBusy :
    (permuting .permBlk 0).busy = true ∧ (permuting .permFin 23).busy = true := by decide

theorem witness_PermutationTakesTwentyFourEdges :
    (permuting .permBlk 0).launched = true ∧ (permuting .permBlk 0).RND = 0 ∧ (permuting .permFin 0).PHASE = .permFin ∧
    (driven (permuting .permBlk 0) (List.replicate 24 (command 0x100000000000000000#72))).noReset 24 = true := by decide

theorem witness_BusyOutputsAreConstant :
    (permuting .permBlk 23).Inv ∧ (permuting .permBlk 23).busy = true := by decide +kernel

theorem witness_NopChangesNothing : exec .nop State.reset = .next State.reset := rfl

theorem witness_InitClearsEveryRegister :
    (permuting .permFin 3).busy = true ∧ State.reset.PHASE = .abs ∧ inDone.PHASE = .done ∧ inErr.PHASE = .err := by
  decide

theorem witness_AbsorbStagesTheBeat :
    (atCount 127).PHASE = .abs ∧ 1 ≤ (8#4).toNat ∧ (8#4).toNat ≤ 8 ∧ (atCount 127).COUNT.toNat + (8#4).toNat = 135 := by
  decide

theorem witness_AbsorbOfAFullBlockStartsThePermutation :
    (atCount 128).PHASE = .abs ∧ (atCount 128).COUNT.toNat + (8#4).toNat = 136 ∧
    (atCount 135).COUNT.toNat + (1#4).toNat = 136 := by decide

theorem witness_AbsorbErrorsWriteNothing :
    inErr.PHASE = .err ∧ inDone.PHASE = .done ∧ (0#4).toNat = 0 ∧ 8 < (9#4).toNat ∧ (atCount 131).PHASE = .abs ∧
    136 < (atCount 131).COUNT.toNat + (8#4).toNat ∧ 136 < (atCount 135).COUNT.toNat + (2#4).toNat := by decide

theorem witness_FinalAbsorbsThePaddedBlock :
    (atCount 135).PHASE = .abs ∧ (atCount 135).COUNT.toNat ≤ 135 ∧ (atCount 0).COUNT.toNat ≤ 135 ∧
    inDone.PHASE = .done ∧ inErr.PHASE = .err := by decide

theorem witness_ReservedOpcodesRaiseIllegalOp :
    (∃ sub, Instr.reservedHigh 7#3 = .reservedHigh sub) ∧ inDone.PHASE = .done ∧ inErr.PHASE = .err ∧
    4 ≤ (opField 0x400000000000000000#72).toNat := ⟨⟨_, rfl⟩, rfl, rfl, by decide⟩

theorem witness_ErrorEntryChangesPhaseAndCodeOnly :
    exec (.reservedLow 0#2) (atCount 5) = .next ((atCount 5).raiseError .illegalOp) ∧ (atCount 5).PHASE ≠ .err ∧
    ((atCount 5).raiseError .illegalOp).PHASE = .err := ⟨rfl, by decide, rfl⟩

theorem witness_OneErrorIsReportedInPriorityOrder :
    inErr.cmdReady = true ∧ inDone.cmdReady = true ∧ (atCount 131).cmdReady = true ∧ (permuting .permBlk 23).busy = true ∧
    step (permuting .permBlk 23) = .next (permuting .permBlk 23).takeInput.busyStep := ⟨rfl, rfl, rfl, rfl, rfl⟩

theorem witness_OnlyInitAndResetLeaveTheErrorPhase :
    inErr.launched = true ∧ inErr.PHASE = .err ∧ step (driven inErr [idle]) = .next (driven inErr []) ∧
    (driven inErr [command 0x100000000000000000#72]).transfers = some .init ∧ Instr.final ≠ .init :=
  ⟨rfl, rfl, rfl, by decide, by decide⟩

theorem witness_EveryStepKeepsTheInvariants :
    inErr.Inv ∧ (atCount 135).Inv ∧ step (driven inErr [idle]) = .next (driven inErr []) :=
  ⟨by decide, by decide, rfl⟩

theorem witness_LaunchedCoreNeverStops : inErr.launched = true := by decide

theorem witness_CapacityIsIsolated :
    step (driven inErr [idle]) = .next (driven inErr []) ∧ (driven inErr [idle]).portInput.rst = false ∧
    (driven inErr [idle]).busy = false ∧ (driven inErr [idle]).transfers ≠ some .init ∧
    (∀ i : Fin 17, (zeroLanes.set 17 9#64)[i.val] = State.reset.S[i.val]) ∧
    nextOf (step (State.reset.present idle)) = some State.reset ∧
    nextOf (step ({ State.reset with S := zeroLanes.set 17 9#64 }.present idle)) =
      some { State.reset with S := zeroLanes.set 17 9#64 } :=
  ⟨rfl, rfl, rfl, by decide, by decide +kernel, by decide +kernel, by decide +kernel⟩

theorem witness_DigestIsStableInDone :
    inDone.launched = true ∧ step (driven inDone [idle]) = .next (driven inDone []) ∧
    (driven inDone [idle]).transfers = none ∧ (driven inDone [command 0#72]).transfers = some .nop ∧
    (driven inDone [command 0x100000000000000000#72]).transfers = some .init ∧
    (driven inDone [command 0x300000000000000000#72]).transfers = some .final ∧
    (driven inDone [resetInput]).portInput.rst = true :=
  ⟨rfl, rfl, by decide, by decide, by decide, by decide, rfl⟩

/-- 128 bytes of zero held, and a beat that fills the block; and a beat that does not. -/
theorem witness_LegalBeatExtendsTheHeldMessage :
    (atCount 128).Holds (List.replicate 128 0#8) ∧ legalBeat (atCount 128).COUNT.toNat 8#4 = true ∧
    legalBeat (atCount 128).COUNT.toNat 7#4 = true ∧ inErr.PHASE = .err :=
  ⟨⟨rfl, rfl, rfl, by decide +kernel, by decide +kernel, by decide +kernel⟩, by decide, by decide, rfl⟩

/-- ABSORB "abc", a NOP, FINAL, then 24 edges with a command held on the port. -/
def abcRun : State :=
  driven .reset ([command 0x230000000000636261#72, command 0#72, command 0x300000000000000000#72] ++
    List.replicate 24 (command 0x100000000000000000#72))

theorem witness_ControllerComputesKeccak256 :
    abcRun.launched = true ∧ abcRun.clear = abcRun ∧ abcRun.noReset 27 = true ∧
    messageOf 0 (transferred 27 abcRun) = some [0x61#8, 0x62#8, 0x63#8] :=
  ⟨rfl, rfl, by decide, by decide +kernel⟩

theorem witness_MessageRunsOnePermutationPerBlockAndOneMore :
    ∃ t : State, Sys2Proof.core.run 27 abcRun = .next t ∧ t.cmdReady = true :=
  ⟨_, rfl, by decide +kernel⟩

/-- The same three bytes with other waiting times have the same events. -/
theorem witness_NoValueDependsOnTiming :
    abcRun.launched = true ∧
    events 3 abcRun =
      events 5 (driven .reset [idle, command 0x23FFFFFFFFFF636261#72, idle, idle, command 0x300000000000000000#72]) :=
  ⟨rfl, by decide +kernel⟩

theorem witness_HostIssueWaitsOutThePermutation :
    (permuting .permBlk 23).launched = true ∧ (permuting .permBlk 23).busy = true ∧ inErr.busy = false := by decide

theorem witness_HashProgramComputesKeccak256InTime :
    inErr.launched = true ∧ inErr.cmdReady = true := by decide

end Sys2Proof.Tests
end

section
/-! The output ports as functions of the state (10_state.md R30, R31): one lemma per field of the status word, and
the two statements about the ports. -/

namespace Sys2Proof.Machine

@[simp] theorem State.dvalid_iff (s : State) : s.dvalid = true ↔ s.PHASE = .done := by
  simp [State.dvalid]

@[simp] theorem State.errFlag_iff (s : State) : s.errFlag = true ↔ s.PHASE = .err := by
  simp [State.errFlag]

/-- `busy` is the complement of `cmd_ready` (R30). -/
theorem State.busy_eq_not_cmdReady (s : State) : s.busy = !s.cmdReady :=
  (Bool.not_not s.busy).symm

/-- `busy` reads no register but PHASE (R30). -/
theorem State.busy_congr {s t : State} (h : s.PHASE = t.PHASE) : s.busy = t.busy :=
  congrArg Phase.busy h

/-- `cmd_ready` reads no register but PHASE (R30). -/
theorem State.cmdReady_congr {s t : State} (h : s.PHASE = t.PHASE) : s.cmdReady = t.cmdReady :=
  congrArg (! ·) (State.busy_congr h)

/-- The codes of the phases in which a command is accepted (R26, R30). -/
theorem Phase.toBits_accepting_iff (p : Phase) :
    p.toBits = 0#3 ∨ p.toBits = 3#3 ∨ p.toBits = 4#3 ↔ p = .abs ∨ p = .done ∨ p = .err := by
  cases p <;> decide

/-- The layout of the status word, from READY at bit 0 up to COUNT at the top (R31). -/
theorem State.status_getLsbD (s : State) (i : Nat) :
    s.status.getLsbD i =
      if i = 0 then s.cmdReady else if i = 1 then s.busy else if i = 2 then s.dvalid else if i = 3 then s.errFlag
      else if i < 7 then s.ERRC.toBits.getLsbD (i - 4) else if i = 7 then false else s.COUNT.getLsbD (i - 8) := by
  simp only [State.status, BitVec.getLsbD_append]
  match i with
  | 0 | 1 | 2 | 3 | 4 | 5 | 6 | 7 => simp
  | k + 8 =>
    have above_errc : ¬ k + 4 < 3 ∧ ¬ k + 8 < 7 := by omega
    simp [above_errc]

theorem State.status_ready (s : State) : s.status.getLsbD 0 = s.cmdReady := s.status_getLsbD 0

theorem State.status_busy (s : State) : s.status.getLsbD 1 = s.busy := s.status_getLsbD 1

theorem State.status_dvalid (s : State) : s.status.getLsbD 2 = s.dvalid := s.status_getLsbD 2

theorem State.status_err (s : State) : s.status.getLsbD 3 = s.errFlag := s.status_getLsbD 3

theorem State.status_bit7 (s : State) : s.status.getLsbD 7 = false := s.status_getLsbD 7

@[simp] theorem State.status_errc (s : State) : s.status.extractLsb' 4 3 = s.ERRC.toBits := by
  refine BitVec.eq_of_getLsbD_eq fun i hi => ?_
  rw [BitVec.getLsbD_extractLsb', s.status_getLsbD, Nat.add_comm]
  simp [hi]

@[simp] theorem State.status_count (s : State) : s.status.extractLsb' 8 8 = s.COUNT := by
  refine BitVec.eq_of_getLsbD_eq fun i hi => ?_
  rw [BitVec.getLsbD_extractLsb', s.status_getLsbD, Nat.add_comm]
  simp [hi]

/-- The code of an error in the status word as a number (R27, R181). -/
theorem ErrorCode.toBits_toNat (e : ErrorCode) :
    e.toBits.toNat =
      (match e with | .none => 0 | .illegalOp => 1 | .badLen => 2 | .overflow => 3 | .sequence => 4) := by
  cases e <;> rfl

theorem State.reset_status : State.reset.status = 0x0001#16 := by decide

/-- Settles O24, field by field. -/
theorem statusWordHasItsFields : Obligations.StatusWordHasItsFields := by
  refine ⟨fun s => ⟨?ready, ?busy, ?dvalid, ?err, ?errc, s.status_bit7, s.status_count, s.status_ready⟩,
    State.reset_status⟩
  case ready => rw [s.status_ready, s.cmdReady_iff]
  case busy => rw [s.status_busy, s.busy_iff]
  case dvalid => rw [s.status_dvalid, s.dvalid_iff]
  case err => rw [s.status_err, s.errFlag_iff]
  case errc => exact (congrArg BitVec.toNat s.status_errc).trans s.ERRC.toBits_toNat

/-- Settles O25: each clause is `State.cmdReady_iff` or `State.busy_iff`, carried to the other output or to the codes
of PHASE. -/
theorem commandReadyIsAFunctionOfThePhase : Obligations.CommandReadyIsAFunctionOfThePhase := by
  refine fun s => ⟨?outside, s.busy_eq_not_cmdReady, ?codes, fun t h => ⟨State.cmdReady_congr h, State.busy_congr h⟩⟩
  case outside => rw [← s.busy_iff, s.busy_eq_not_cmdReady]; simp
  case codes => rw [s.cmdReady_iff, s.PHASE.toBits_accepting_iff]

end Sys2Proof.Machine
end

section
/-! The packing of bytes into lanes (20_memory.md R52): `le64` is read byte by byte through `le64_extractLsb'`, a lane is
known by its bytes (`lane_ext`), and the digest port is read lane by lane through `digestLanes_lane`. -/

namespace Sys2Proof.Machine

/-- Concatenation as addition: the low part below, the high part shifted up by the low part's width. -/
theorem toNat_append_eq_add {m n : Nat} (hi : BitVec m) (lo : BitVec n) :
    (hi ++ lo).toNat = hi.toNat * 2 ^ n + lo.toNat := by
  rw [BitVec.toNat_append, ← Nat.shiftLeft_add_eq_or_of_lt lo.isLt, Nat.shiftLeft_eq]

/-- A field of a field is a field of the word. -/
theorem extractLsb'_extractLsb' {n : Nat} (x : BitVec n) {start len start' len' : Nat} (h : start' + len' ≤ len) :
    (x.extractLsb' start len).extractLsb' start' len' = x.extractLsb' (start + start') len' := by
  refine BitVec.eq_of_getLsbD_eq fun i hi => ?_
  have inside : start' + i < len := by omega
  simp [hi, inside, Nat.add_assoc]

/-- A sum over the eight bytes, written out for an arbitrary summand, so that the weights `2^(8j)` are not evaluated
when the kernel checks it. -/
theorem sum_map_range_eight (f : Nat → Nat) :
    ((List.range 8).map f).sum = f 0 + f 1 + f 2 + f 3 + f 4 + f 5 + f 6 + f 7 := by
  simp [List.range_succ, Nat.add_assoc]

theorem toList_getD_of_lt (bs : Vector Byte 8) (j : Nat) (h : j < 8) : bs.toList.getD j 0#8 = bs[j] := by
  simp [h]

/-- `LE64` as a number: byte j weighs 2^(8j) (R52). -/
theorem le64_toNat (bs : Vector Byte 8) :
    (le64 bs).toNat = ((List.range 8).map fun j => (bs.toList.getD j 0#8).toNat * 2 ^ (8 * j)).sum := by
  unfold le64
  simp only [toNat_append_eq_add, sum_map_range_eight, toList_getD_of_lt, Nat.reduceLT]
  ring

/-- Byte j of `LE64(b0, ..., b7)` is bj (R52). -/
theorem le64_extractLsb' (bs : Vector Byte 8) (j : Nat) (h : j < 8) : (le64 bs).extractLsb' (8 * j) 8 = bs[j] := by
  unfold le64
  match j with
  | 0 | 1 | 2 | 3 | 4 | 5 | 6 | 7 =>
    simp only [BitVec.extractLsb'_append_eq_of_le, BitVec.extractLsb'_append_eq_right, BitVec.extractLsb'_eq_self,
      Nat.reduceMul, Nat.reduceLeDiff, Nat.reduceSub]

/-- `BYTES` undoes `LE64` (R52). -/
theorem bytesOfLane_le64 (bs : Vector Byte 8) : bytesOfLane (le64 bs) = bs :=
  Vector.ext fun j hj => (bytesOfLane_getElem _ j hj).trans (le64_extractLsb' bs j hj)

/-- A lane is known by its eight bytes: bit i is bit `i % 8` of byte `i / 8`. -/
theorem lane_ext {L L' : Lane} (h : bytesOfLane L = bytesOfLane L') : L = L' := by
  refine BitVec.eq_of_getLsbD_eq fun i hi => ?_
  have same_byte : L.extractLsb' (8 * (i / 8)) 8 = L'.extractLsb' (8 * (i / 8)) 8 := by
    rw [← bytesOfLane_getElem L _ (by omega), ← bytesOfLane_getElem L' _ (by omega), h]
  have same_bit := congrArg (·.getLsbD (i % 8)) same_byte
  simpa [Nat.mod_lt, Nat.div_add_mod] using same_bit

/-- `LE64` undoes `BYTES` (R52). -/
theorem le64_bytesOfLane (L : Lane) : le64 (bytesOfLane L) = L :=
  lane_ext (bytesOfLane_le64 _)

/-- Byte j of block lane w is block byte 8w + j (R52). -/
theorem blockLane_extractLsb' (blk : Block) (w : Fin 17) (j : Nat) (h : j < 8) :
    (blockLane blk w).extractLsb' (8 * j) 8 = blk[8 * w.val + j] := by
  simp [blockLane, le64_extractLsb' _ j h]

/-- Lane l of the digest word is state lane l (R143). -/
theorem digestLanes_lane (S : Lanes) (l : Nat) (h : l < 4) : (digestLanes S).extractLsb' (64 * l) 64 = S[l] := by
  unfold digestLanes
  match l with
  | 0 | 1 | 2 | 3 =>
    simp only [BitVec.extractLsb'_append_eq_of_le, BitVec.extractLsb'_append_eq_right, BitVec.extractLsb'_eq_self,
      Nat.reduceMul, Nat.reduceLeDiff, Nat.reduceSub]

theorem State.digest_of_done (s : State) (h : s.PHASE = .done) : s.digest = digestLanes s.S := by
  simp [State.digest, h]

/-- Byte i of the digest word is byte `i % 8` of state lane `i / 8` (R52, R143). -/
theorem digestLanes_byte (S : Lanes) (i : Nat) (h : i < 32) :
    (digestLanes S).extractLsb' (8 * i) 8 = (bytesOfLane S[i / 8])[i % 8] := by
  have byte_in_lane : 8 * i = 64 * (i / 8) + 8 * (i % 8) := by omega
  rw [bytesOfLane_getElem, ← digestLanes_lane S (i / 8) (by omega), extractLsb'_extractLsb' _ (by omega),
    ← byte_in_lane]

/-- Settles O9: the sum and the inverses are those of `LE64`; absorption and the digest port read lanes by it. -/
theorem lanePackingIsLittleEndian : Obligations.LanePackingIsLittleEndian := by
  refine ⟨le64_toNat, le64_bytesOfLane, bytesOfLane_le64, ?block, ?worked, ?absorb, ?digest⟩
  case block => exact fun blk w j => blockLane_extractLsb' blk w j j.isLt
  case worked => decide
  case absorb => exact fun S blk w => absorb_getElem_rate S blk w w.isLt
  case digest => exact fun s i done => by rw [s.digest_of_done done, digestLanes_byte s.S i i.isLt]

end Sys2Proof.Machine
end

section
/-! The op field of a command word (30_encoding.md R70, R71): `decode` case by case on it, and the opcode table read
through it. A row covers a word exactly when it has the mnemonic of the word's command (`covers_eq_mnemonic`). -/

namespace Sys2Proof

/-- A word is its three fields (R70). -/
theorem packFields_fields (w : CmdWord) : packFields (opField w) (lenField w) (dataField w) = w := by
  refine BitVec.eq_of_getLsbD_eq fun k hk => ?_
  simp only [packFields, opField, lenField, dataField, BitVec.getLsbD_append, BitVec.getLsbD_extractLsb']
  split
  next inData => simp [inData]
  next aboveData =>
    have back_up : 64 + (k - 64) = k := by omega
    split
    next inLen => simp [inLen, back_up]
    next aboveLen =>
      have op_index : k - 64 - 4 < 4 ∧ 68 + (k - 64 - 4) = k := by omega
      simp [op_index]

@[simp] theorem opField_packFields (op len : BitVec 4) (data : BitVec 64) : opField (packFields op len data) = op := by
  calc (packFields op len data).extractLsb' 68 4
    _ = (op ++ len).extractLsb' 4 4 := BitVec.extractLsb'_append_eq_of_le (by decide)
    _ = op.extractLsb' 0 4 := BitVec.extractLsb'_append_eq_of_le (by decide)
    _ = op := BitVec.extractLsb'_eq_self

/-! ### The decoder by its op field -/

theorem decode_of_op_nop {w : CmdWord} (h : opField w = 0x0#4) : decode w = .nop := by
  simp [decode, h]

theorem decode_of_op_init {w : CmdWord} (h : opField w = 0x1#4) : decode w = .init := by
  simp [decode, h]

theorem decode_of_op_absorb {w : CmdWord} (h : opField w = 0x2#4) :
    decode w = .absorb (lenField w) (significantData (lenField w) (dataField w)) := by
  simp [decode, h]

theorem decode_of_op_final {w : CmdWord} (h : opField w = 0x3#4) : decode w = .final := by
  simp [decode, h]

theorem decode_of_op_reservedLow {w : CmdWord} (low : 4 ≤ (opField w).toNat) (high : (opField w).toNat < 8) :
    decode w = .reservedLow (w.extractLsb' 68 2) := by
  have op_value : (opField w).toNat = 4 ∨ (opField w).toNat = 5 ∨ (opField w).toNat = 6 ∨ (opField w).toNat = 7 := by
    omega
  rcases op_value with h | h | h | h <;> simp [decode, h]

theorem decode_of_op_reservedHigh {w : CmdWord} (low : 8 ≤ (opField w).toNat) :
    decode w = .reservedHigh (w.extractLsb' 68 3) := by
  unfold decode
  split
  case h_9 => rfl
  all_goals omega

/-- The op field alone selects the command's row (R71). -/
theorem decode_mnemonic_congr {w w' : CmdWord} (h : opField w = opField w') :
    (decode w).mnemonic = (decode w').mnemonic := by
  unfold decode
  rw [h]
  match (opField w').toNat with
  | 0 | 1 | 2 | 3 | 4 | 5 | 6 | 7 | _ + 8 => rfl

/-! ### The opcode table by its op field -/

/-- No row constrains a bit below the op field. -/
theorem opcodeTable_within_op : ∀ r ∈ opcodeTable,
    r = ⟨r.mnemonic, opField r.pattern ++ 0#4 ++ 0#64, opField r.mask ++ 0#4 ++ 0#64⟩ := by
  decide

/-- A row of the table covers a word exactly when the op fields match. -/
theorem covers_eq_op {r : OpcodeRow} (hr : r ∈ opcodeTable) (w : CmdWord) :
    r.covers w = decide (opField w &&& opField r.mask = opField r.pattern) := by
  have on_fields := Laws.TableRow.covers_packFields r.mnemonic (opField r.pattern) (opField r.mask) (opField w)
    (lenField w) (dataField w)
  rwa [← opcodeTable_within_op r hr, packFields_fields] at on_fields

/-- The sixteen values of the op field against the six rows of the table. -/
theorem op_matches_row_eq_mnemonic : ∀ op : BitVec 4, ∀ r ∈ opcodeTable,
    decide (op &&& opField r.mask = opField r.pattern) =
      decide (r.mnemonic = (decode (packFields op 0#4 0#64)).mnemonic) := by
  decide

/-- The rows that cover a word are exactly those with the mnemonic of its command (R71). -/
theorem covers_eq_mnemonic {r : OpcodeRow} (hr : r ∈ opcodeTable) (w : CmdWord) :
    r.covers w = decide (r.mnemonic = (decode w).mnemonic) := by
  have same_op : opField w = opField (packFields (opField w) 0#4 0#64) := (opField_packFields _ _ _).symm
  rw [covers_eq_op hr, op_matches_row_eq_mnemonic _ r hr, decode_mnemonic_congr same_op]

/-- Every command has a row (R71). -/
theorem exists_row_of_mnemonic (i : Instr) : ∃ r ∈ opcodeTable, r.mnemonic = i.mnemonic := by
  cases i <;> simp [opcodeTable, Instr.mnemonic]

/-- No two rows share a mnemonic. -/
theorem opcodeTable_mnemonic_inj : ∀ r ∈ opcodeTable, ∀ r' ∈ opcodeTable, r'.mnemonic = r.mnemonic → r' = r := by
  decide

/-- Settles O4: the clauses on the op field are the cases of `decode`, and the one covering row is the one that has
the decoded command's mnemonic. -/
theorem everyWordIsExactlyOneRow : Obligations.EveryWordIsExactlyOneRow := by
  intro w
  refine ⟨decode_of_op_nop, decode_of_op_init, fun h => ⟨_, decode_of_op_absorb h⟩, decode_of_op_final,
    fun low high => ⟨_, decode_of_op_reservedLow low high⟩, fun low => ⟨_, decode_of_op_reservedHigh low⟩, ?row⟩
  case row =>
    obtain ⟨r, hr, named⟩ := exists_row_of_mnemonic (decode w)
    refine ⟨r, hr, ?covers, named, fun r' hr' covers' => ?unique⟩
    case covers => simp [covers_eq_mnemonic hr, named]
    case unique =>
      have named' : r'.mnemonic = (decode w).mnemonic := by simpa [covers_eq_mnemonic hr'] using covers'
      exact opcodeTable_mnemonic_inj r hr r' hr' (named'.trans named.symm)

end Sys2Proof
end

section
/-! The steps of a round (40_permutation.md R101, R105, R108, R109). A rotation is the library's `rotateLeft`; theta
and chi are read by column and by row (`theta_column`, `chi_row`); what a step does to the zero state is said once. -/

namespace Sys2Proof.Machine

/-! ### Rotation (R101) -/

/-- The amount is below the lane's width, so `rotl64` is the library's rotation. -/
theorem rotl64_eq_rotateLeft (v : Lane) (n : RotAmount) : rotl64 v n = v.rotateLeft n.val := by
  have below_width : n.val % 64 = n.val := Nat.mod_eq_of_lt (by omega)
  rw [BitVec.rotateLeft_def, below_width, rotl64]

/-- Bit i goes to bit `(i + n) mod 64`: below the top it moves up by n, above it wraps round to the n low bits. -/
theorem rotl64_getLsbD_add_mod (v : Lane) (n : RotAmount) (i : Nat) (h : i < 64) :
    (rotl64 v n).getLsbD ((i + n.val) % 64) = v.getLsbD i := by
  rw [rotl64_eq_rotateLeft, BitVec.getLsbD_rotateLeft_of_le (by omega)]
  by_cases wraps : i + n.val < 64
  case pos =>
    rw [Nat.mod_eq_of_lt wraps]
    simp [wraps]
  case neg =>
    have low : (i + n.val) % 64 < n.val := by omega
    have back : 64 - n.val + (i + n.val) % 64 = i := by omega
    simp [low, back]

/-- Settles O11: the formula is the definition, the movement of the bits is `rotl64_getLsbD_add_mod`. -/
theorem rotateLeftMovesEveryBit : Obligations.RotateLeftMovesEveryBit := by
  refine ⟨fun v n => ⟨rfl, rotl64_getLsbD_add_mod v n⟩, ?offsets, ?wrapped, ?nibble⟩
  case offsets => decide
  case wrapped => decide
  case nibble => decide

/-! ### Theta (R105) -/

/-- Theta at lane (x, y): every lane of column x takes the same correction, computed from the input. -/
theorem theta_column (S : Lanes) (x y : Fin 5) :
    (theta S)[x.val + 5 * y.val] = S[x.val + 5 * y.val] ^^^ thetaDelta S x := by
  have column : (x.val + 5 * y.val) % 5 = x.val := by omega
  simp only [theta_getElem, column]

@[simp] theorem rotl64_zero (n : RotAmount) : rotl64 0#64 n = 0#64 := by simp [rotl64]

@[simp] theorem columnParity_zeroLanes (x : Fin 5) : columnParity zeroLanes x = 0#64 := by simp [columnParity]

@[simp] theorem theta_zeroLanes : theta zeroLanes = zeroLanes :=
  Vector.ext fun i h => by simp [theta_getElem, thetaDelta]

/-- Settles O14: `thetaDelta` is the correction the statement writes out. -/
theorem thetaAddsTheNeighbourParities : Obligations.ThetaAddsTheNeighbourParities := by
  refine ⟨theta_column, theta_zeroLanes, ?worked⟩
  case worked => decide

/-! ### Chi (R108) -/

/-- Chi at position i of row y: the two next lanes of the same row, counted round the row. -/
theorem chi_row (S : Lanes) (y i : Fin 5) :
    (chi S)[5 * y.val + i.val] =
      S[5 * y.val + i.val] ^^^ (~~~S[5 * y.val + (i.val + 1) % 5] &&& S[5 * y.val + (i.val + 2) % 5]) := by
  have row : (5 * y.val + i.val) / 5 = y.val := by omega
  have position : (5 * y.val + i.val) % 5 = i.val := by omega
  simp only [chi_getElem, row, position]

/-- A row of five equal lanes is fixed: `~c & c` is zero. -/
theorem chi_constant_row {S : Lanes} {y : Fin 5} {c : Lane} (h : ∀ i : Fin 5, S[5 * y.val + i.val] = c) (i : Fin 5) :
    (chi S)[5 * y.val + i.val] = c := by
  have next : S[5 * y.val + (i.val + 1) % 5] = c := h ⟨(i.val + 1) % 5, by omega⟩
  have afterNext : S[5 * y.val + (i.val + 2) % 5] = c := h ⟨(i.val + 2) % 5, by omega⟩
  simp [chi_row, h i, next, afterNext]

/-- Chi is bit-sliced: bit k of a row after it is known from bit k of the row's lanes. -/
theorem chi_row_getLsbD_congr {S T : Lanes} {k : Nat} {y : Fin 5}
    (h : ∀ i : Fin 5, S[5 * y.val + i.val].getLsbD k = T[5 * y.val + i.val].getLsbD k) (i : Fin 5) :
    (chi S)[5 * y.val + i.val].getLsbD k = (chi T)[5 * y.val + i.val].getLsbD k := by
  have next := h ⟨(i.val + 1) % 5, by omega⟩
  have afterNext := h ⟨(i.val + 2) % 5, by omega⟩
  simp only [chi_row, BitVec.getLsbD_xor, BitVec.getLsbD_and, BitVec.getLsbD_not, h i, next, afterNext]

@[simp] theorem chi_zeroLanes : chi zeroLanes = zeroLanes :=
  Vector.ext fun i h => by simp [chi_getElem]

/-- Settles O18: the formula by row; both fixed rows are constant ones. -/
theorem chiMixesEveryRow : Obligations.ChiMixesEveryRow := by
  refine ⟨chi_row, fun _ _ => chi_constant_row, fun _ _ => chi_constant_row, fun _ _ _ _ => chi_row_getLsbD_congr,
    ?oneBit, ?twoLanes⟩
  case oneBit => decide
  case twoLanes => decide

/-! ### Iota and a round of the zero state (R109, R110) -/

/-- Iota undoes itself: the round constant cancels in lane 0. -/
theorem iota_iota (S : Lanes) (r : Fin 24) : iota (iota S r) r = S := by
  refine Vector.ext fun i h => ?_
  rw [iota_getElem, iota_getElem, iota_getElem]
  by_cases lane0 : i = 0
  case pos => simp [lane0]
  case neg => simp [lane0]

theorem round_eq (S : Lanes) (r : Fin 24) : round S r = iota (chi (rhoPi (theta S))) r := by
  rw [round]

/-- Every iteration moves and rotates lanes of zeros only. -/
@[simp] theorem rhoPi_zeroLanes : rhoPi zeroLanes = zeroLanes := by decide

/-- On the zero state only iota has an effect. -/
theorem round_zeroLanes (r : Fin 24) : round zeroLanes r = iota zeroLanes r := by
  rw [round_eq, theta_zeroLanes, rhoPi_zeroLanes, chi_zeroLanes]

/-- Settles O19: lane by lane by `iota_getElem`; round 0 of zero is iota on zero. -/
theorem iotaChangesLaneZeroOnly : Obligations.IotaChangesLaneZeroOnly := by
  refine ⟨fun S r => ⟨?lane0, ?others, iota_iota S r⟩, ?round0⟩
  case lane0 => exact iota_getElem S r 0 (by decide)
  case others =>
    intro i hi
    have not_lane0 : i.val ≠ 0 := Fin.val_ne_zero_iff.mpr hi
    exact (iota_getElem S r i i.isLt).trans (if_neg not_lane0)
  case round0 =>
    rw [round_zeroLanes, iota_getElem]
    decide

end Sys2Proof.Machine
end

section
/-! The datapath of the sponge at one lane and one byte (41_sponge.md R141 to R143): the rate lanes of an absorption,
the bytes of a padded block, and the digest port in each phase. -/

namespace Sys2Proof.Machine

/-! ### Absorption (R141) -/

/-- A block lane with its eight bytes written out (R52). -/
theorem blockLane_eq_le64 (blk : Block) (w : Fin 17) :
    blockLane blk w = le64 #v[blk[8 * w.val], blk[8 * w.val + 1], blk[8 * w.val + 2], blk[8 * w.val + 3],
      blk[8 * w.val + 4], blk[8 * w.val + 5], blk[8 * w.val + 6], blk[8 * w.val + 7]] := by
  simp [blockLane, le64]

/-- Settles O21: a rate lane takes its block lane, a capacity lane is kept. -/
theorem absorbXorsTheRateLanesOnly : Obligations.AbsorbXorsTheRateLanesOnly := by
  refine fun S blk => ⟨fun w => ?rate, fun w capacity => ?capacity⟩
  case rate => rw [absorb_getElem_rate S blk w w.isLt, blockLane_eq_le64]
  case capacity => exact absorb_getElem_capacity S blk w capacity w.isLt

/-! ### Padding (R142) -/

/-- Below COUNT the padded block is the buffer. -/
theorem pad_getElem_of_lt_count {buf : Block} {count k : Nat} (count_le : count ≤ 135) (tail : k < count) :
    (pad buf count)[k] = buf[k] := by
  have off_both : k ≠ count ∧ k ≠ 135 := by omega
  simp [pad_getElem, off_both]

/-- From COUNT on, over a buffer of zeros there, the padded block is the two padding bytes. -/
theorem pad_getElem_of_count_le {buf : Block} {count k : Nat} (h : k < 136)
    (zero : ∀ k : Fin 136, count ≤ k.val → buf[k] = 0#8) (behind : count ≤ k) :
    (pad buf count)[k] = (if k = count then 0x01#8 else 0#8) ^^^ (if k = 135 then 0x80#8 else 0#8) := by
  have empty : buf[k] = 0#8 := zero ⟨k, h⟩ behind
  rw [pad_getElem, empty, BitVec.zero_xor]

/-- Settles O22: the first clause is `pad_getElem`; the others split the block at COUNT. -/
theorem paddingIsMultiRate : Obligations.PaddingIsMultiRate := by
  refine fun buf count count_le => ⟨fun k => ?byte, fun zero => ⟨fun k tail => ?tail, fun room => ⟨?first, ?last⟩,
    fun full => ?both, fun k behind before => ?between⟩⟩
  case byte => exact (pad_getElem buf count k k.isLt).trans (by ac_rfl)
  case tail => exact pad_getElem_of_lt_count count_le tail
  case first =>
    have inside : count < 136 := by omega
    rw [getElem!_pos (pad buf count) count inside, pad_getElem_of_count_le inside zero le_rfl]
    simp [room.ne]
  case last =>
    rw [pad_getElem_of_count_le _ zero count_le]
    simp [room.ne']
  case both =>
    rw [pad_getElem_of_count_le _ zero count_le]
    simp [full]
  case between =>
    refine (pad_getElem_of_count_le k.isLt zero behind.le).trans ?_
    simp [behind.ne', before.ne]

/-! ### The digest port (R143, R32) -/

theorem State.digest_of_not_done {s : State} (h : s.PHASE ≠ .done) : s.digest = 0#256 := by
  unfold State.digest
  split
  case h_1 done => exact absurd done h
  all_goals rfl

theorem State.digest_eq_ite (s : State) :
    s.digest = if s.PHASE = .done then digestLanes s.S else 0#256 := by
  split
  next done => exact s.digest_of_done done
  next masked => exact State.digest_of_not_done masked

/-- The digest lanes are the first four of the state. -/
theorem digestLanes_congr {S T : Lanes} (h : ∀ i : Fin 4, S[i.val] = T[i.val]) : digestLanes S = digestLanes T := by
  have lane0 : S[0] = T[0] := h 0
  have lane1 : S[1] = T[1] := h 1
  have lane2 : S[2] = T[2] := h 2
  have lane3 : S[3] = T[3] := h 3
  simp only [digestLanes, lane0, lane1, lane2, lane3]

/-- Settles O23: the port is `State.digest_eq_ite`, its bytes are `digestLanes_byte`. -/
theorem digestPortShowsTheFirstFourLanesInDone : Obligations.DigestPortShowsTheFirstFourLanesInDone := by
  refine ⟨State.digest_eq_ite, fun s i done => ?bytes, fun s t phase lanes => ?congr,
    State.digest_of_not_done (by decide)⟩
  case bytes => rw [s.digest_of_done done, digestLanes_byte s.S i i.isLt, bytesOfLane_getElem, stateByte]
  case congr => rw [s.digest_eq_ite, t.digest_eq_ite, phase, digestLanes_congr lanes]

end Sys2Proof.Machine
end

section
/-! One clock edge by the action it takes (41_sponge.md R144, R145): an equation of `step` for each action, and when a
command transfers. -/

namespace Sys2Proof.Machine

theorem State.cmdReady_iff_not_busy (s : State) : s.cmdReady = true ↔ s.busy = false := by
  simp [State.busy_eq_not_cmdReady]

/-- INIT and reset leave the registers of the reset state (R147, R200). -/
theorem State.clear_eq_reset (s : State) :
    s.clear = { State.reset with launched := s.launched, inputs := s.inputs } := rfl

theorem State.resetEdge_eq_reset (s : State) : s.resetEdge = { State.reset with inputs := s.inputs } := rfl

/-! ### The busy step (R153, R154) -/

theorem nextRound_val {r : Fin 24} (h : r.val < 23) : (nextRound r).val = r.val + 1 := by
  rw [nextRound, if_pos h, Fin.val_add_one_of_lt (Fin.lt_def.mpr h)]

theorem State.busyStep_of_lt {s : State} (h : s.RND.val < 23) :
    s.busyStep = { s with S := round s.S s.RND, RND := nextRound s.RND } := by
  rw [State.busyStep, if_pos h]

theorem State.busyStep_of_last {s : State} (h : s.RND.val = 23) :
    s.busyStep = { s with S := round s.S 23, RND := 0, PHASE := s.PHASE.afterPermutation } := by
  have last : s.RND = 23 := Fin.ext h
  simp [State.busyStep, nextRound, last]

/-- A busy core leaves its phase for ABS or DONE only. -/
theorem State.busyStep_PHASE_ne_err {s : State} (busy : s.busy = true) : s.busyStep.PHASE ≠ .err := by
  rw [State.busyStep_PHASE]
  rcases s.busy_iff.mp busy with phase | phase <;> rw [phase] <;> split <;> decide

/-! ### The edge by its action (R144) -/

theorem step_of_rst {s : State} (rst : s.portInput.rst = true) :
    step s = .next { State.reset with inputs := s.inputs.tail } := by
  simpa [rst, State.resetEdge_eq_reset] using step_cases (s := s) rfl

section
variable {s : State} (noRst : s.portInput.rst = false) (launched : s.launched = true)
include noRst launched

theorem step_of_busy (busy : s.busy = true) : step s = .next s.takeInput.busyStep := by
  simpa [noRst, launched, busy] using step_cases (s := s) rfl

/-- The busy edge of round 23 ends the permutation (R154). -/
theorem step_of_last_round (busy : s.busy = true) (last : s.RND.val = 23) :
    step s = .next { s with
      S := round s.S 23, RND := 0, PHASE := s.PHASE.afterPermutation, inputs := s.inputs.tail } :=
  (step_of_busy noRst launched busy).trans (congrArg _ (State.busyStep_of_last (s := s.takeInput) last))

theorem step_of_command (ready : s.busy = false) (valid : s.portInput.cmdValid = true) :
    step s = exec (decode s.portInput.cmd) s.takeInput := by
  simpa [noRst, launched, ready, valid] using step_cases (s := s) rfl

theorem step_of_hold (ready : s.busy = false) (noValid : s.portInput.cmdValid = false) :
    step s = .next s.takeInput := by
  simpa [noRst, launched, ready, noValid] using step_cases (s := s) rfl

end

/-- Settles O31: each clause is the equation of its action, the busy ones with the busy step of their round. -/
theorem edgeTakesOneActionInPriorityOrder : Obligations.EdgeTakesOneActionInPriorityOrder := by
  refine fun s launched => ⟨step_of_rst, fun noRst phase below => ?round, fun noRst phase last => ?lastBlk,
    fun noRst phase last => ?lastFin, fun noRst phase valid => ?command, fun noRst phase noValid => ?hold⟩
  case round =>
    have edge := step_of_busy noRst launched (s.busy_iff.mpr phase)
    exact ⟨nextRound s.RND, nextRound_val below, edge.trans (congrArg _ (State.busyStep_of_lt below))⟩
  case lastBlk =>
    rw [step_of_last_round noRst launched (s.busy_iff.mpr (.inl phase)) last, phase, Phase.afterPermutation]
  case lastFin =>
    rw [step_of_last_round noRst launched (s.busy_iff.mpr (.inr phase)) last, phase, Phase.afterPermutation]
  case command => exact step_of_command noRst launched (by simpa [← s.busy_iff] using phase) valid
  case hold => exact step_of_hold noRst launched (by simpa [← s.busy_iff] using phase) noValid

/-! ### Transfer (R145) -/

/-- The command that transfers is the one presented, to a launched core that is ready and not reset. -/
theorem State.transfers_eq_some_iff {s : State} {i : Instr} :
    s.transfers = some i ↔ s.portInput.rst = false ∧ s.launched = true ∧ s.busy = false ∧
      s.portInput.cmdValid = true ∧ decode s.portInput.cmd = i := by
  unfold State.transfers State.edgeAction
  split_ifs with rst unlaunched busy valid <;> simp_all

theorem State.transfers_isSome_iff {s : State} (launched : s.launched = true) :
    s.transfers.isSome = true ↔ s.portInput.rst = false ∧ s.portInput.cmdValid = true ∧ s.cmdReady = true := by
  simp only [Option.isSome_iff_exists, State.transfers_eq_some_iff, s.cmdReady_iff_not_busy, launched]
  tauto

theorem State.transfers_of_busy {s : State} (busy : s.busy = true) : s.transfers = none := by
  refine Option.eq_none_iff_forall_ne_some.mpr fun i transfer => ?_
  obtain ⟨-, -, ready, -, -⟩ := State.transfers_eq_some_iff.mp transfer
  simp [busy] at ready

/-- A transferred command is executed. -/
theorem step_of_transfers {s : State} {i : Instr} (h : s.transfers = some i) : step s = exec i s.takeInput := by
  obtain ⟨noRst, launched, ready, valid, rfl⟩ := State.transfers_eq_some_iff.mp h
  exact step_of_command noRst launched ready valid

/-- An edge of a ready core without reset and without an effective command changes no register. -/
theorem step_of_no_transfer_or_nop {s : State} (noRst : s.portInput.rst = false) (launched : s.launched = true)
    (ready : s.busy = false) (quiet : s.transfers = none ∨ s.transfers = some .nop) :
    step s = .next s.takeInput := by
  rcases quiet with noTransfer | nop
  case inl =>
    have noValid : s.portInput.cmdValid = false := by
      by_contra valid
      have transfer := State.transfers_eq_some_iff.mpr ⟨noRst, launched, ready, by simpa using valid, rfl⟩
      simp [noTransfer] at transfer
    exact step_of_hold noRst launched ready noValid
  case inr => exact step_of_transfers nop

/-- Settles O32: the transfer is `State.transfers_isSome_iff` and `step_of_transfers`; to a busy core the port
makes no difference, since the edge is the busy step. -/
theorem commandTransfersExactlyWhenReady : Obligations.CommandTransfersExactlyWhenReady := by
  refine fun s launched => ⟨State.transfers_isSome_iff launched, fun i transfer => ⟨?decoded, step_of_transfers transfer⟩,
    fun notReady valid w => ?busy, fun ready w => ?held⟩
  case decoded =>
    obtain ⟨-, -, -, -, decoded⟩ := State.transfers_eq_some_iff.mp transfer
    exact decoded.symm
  case busy =>
    have busy : s.busy = true := by simp [s.busy_eq_not_cmdReady, notReady]
    have edge (v : Bool) (x : CmdWord) : step (s.present ⟨false, v, x⟩) = .next s.takeInput.busyStep :=
      step_of_busy rfl launched busy
    refine ⟨State.transfers_of_busy busy, (edge valid w).trans (edge false 0#72).symm, fun t next => ?_⟩
    cases (edge valid w).symm.trans next
    exact ⟨rfl, State.busyStep_PHASE_ne_err busy⟩
  case held =>
    exact State.transfers_eq_some_iff.mpr ⟨rfl, launched, s.cmdReady_iff_not_busy.mp ready, rfl, rfl⟩

end Sys2Proof.Machine
end

section
/-! INIT, the reserved opcodes, and every command in DONE (41_sponge.md R147, R150, R158). -/

namespace Sys2Proof.Machine

/-! ### INIT (R147) -/

theorem exec_init_of_ready {s : State} (ready : s.cmdReady = true) : exec .init s = .next s.clear :=
  congrArg _ (s.onTransfer_ready s.clear ready)

theorem State.clear_status (s : State) : s.clear.status = 0x0001#16 := State.reset_status

theorem State.clear_digest (s : State) : s.clear.digest = 0#256 := State.digest_of_not_done (by simp)

/-- Settles O37: in an accepting phase INIT is `State.clear`, which is idempotent. -/
theorem initClearsEveryRegister : Obligations.InitClearsEveryRegister := by
  refine ⟨fun s busy => ?busy, fun s accepting => ⟨s.clear, ?clears, rfl, s.clear_eq_reset, s.clear_status, s.clear_digest,
    ?again⟩⟩
  case busy => simp [State.transfers_of_busy busy]
  case clears => exact exec_init_of_ready (s.cmdReady_iff.mpr accepting)
  case again => exact exec_init_of_ready (s := s.clear) rfl

/-! ### Reserved opcodes (R150) -/

theorem reservedOp_of_abs_or_done {s : State} (phase : s.PHASE = .abs ∨ s.PHASE = .done) :
    reservedOp s = s.raiseError .illegalOp := by
  have ready : s.cmdReady = true := s.cmdReady_iff.mpr (by tauto)
  rcases phase with phase | phase <;> simp [reservedOp, phase, s.onTransfer_ready _ ready]

theorem reservedOp_of_err {s : State} (phase : s.PHASE = .err) : reservedOp s = s := by
  simp [reservedOp, State.onTransfer, phase]

theorem State.raiseError_digest (s : State) (code : ErrorCode) : (s.raiseError code).digest = 0#256 :=
  State.digest_of_not_done (by simp)

/-- Settles O42: both rows are `reservedOp`, whatever the sub-opcode; the decoder's rows are those of the op field. -/
theorem reservedOpcodesRaiseIllegalOp : Obligations.ReservedOpcodesRaiseIllegalOp := by
  refine ⟨fun s i reserved => ?rows, fun w op => ?decoder, ?status⟩
  case rows =>
    have meaning : exec i s = .next (reservedOp s) := by
      rcases reserved with ⟨sub, rfl⟩ | ⟨sub, rfl⟩ <;> rfl
    refine ⟨fun phase => ⟨s.raiseError .illegalOp, ?raises, rfl, rfl, s.raiseError_digest _⟩, fun phase => ?dropped⟩
    case raises => rw [meaning, reservedOp_of_abs_or_done phase]
    case dropped => rw [meaning, reservedOp_of_err phase]
  case decoder =>
    rcases Nat.lt_or_ge (opField w).toNat 8 with low | high
    · exact .inl ⟨_, decode_of_op_reservedLow op low⟩
    · exact .inr ⟨_, decode_of_op_reservedHigh high⟩
  case status =>
    intro t next
    have row : decode 0x400000000000000000#72 = .reservedLow 0#2 := by decide
    rw [row] at next
    cases next
    decide

/-! ### The commands in DONE (R158) -/

/-- In DONE every command but NOP and INIT raises an error. -/
theorem exec_raises_of_done {i : Instr} {s : State} (done : s.PHASE = .done) (notNop : i ≠ .nop) (notInit : i ≠ .init) :
    ∃ code, exec i s = .next (s.raiseError code) ∧ code ≠ .none := by
  have ready : s.busy = false := s.cmdReady_iff_not_busy.mp (s.cmdReady_iff.mpr (.inr (.inl done)))
  simpa [done, notNop, notInit, ready] using exec_cases (i := i) (s := s) rfl

/-- Settles O50: a quiet edge keeps the registers, reset and INIT lead to ABS, and every other command raises an
error. -/
theorem digestIsStableInDone : Obligations.DigestIsStableInDone := by
  intro s t launched done next
  have ready : s.cmdReady = true := s.cmdReady_iff.mpr (.inr (.inl done))
  refine ⟨fun noRst quiet => ?kept, fun cleared => ?cleared, fun i transfer notNop notInit => ?raised⟩
  case kept =>
    have edge := step_of_no_transfer_or_nop noRst launched (s.cmdReady_iff_not_busy.mp ready) quiet
    cases next.symm.trans edge
    exact ⟨rfl, rfl, done⟩
  case cleared =>
    have phase : t.PHASE = .abs := by
      rcases cleared with rst | init
      · cases next.symm.trans (step_of_rst rst)
        rfl
      · cases next.symm.trans ((step_of_transfers init).trans (exec_init_of_ready ready))
        rfl
    exact ⟨phase, State.digest_of_not_done (by simp [phase])⟩
  case raised =>
    obtain ⟨code, raises, -⟩ := exec_raises_of_done (s := s.takeInput) done notNop notInit
    cases next.symm.trans ((step_of_transfers transfer).trans raises)
    exact ⟨rfl, State.raiseError_digest _ code⟩

end Sys2Proof.Machine
end

section
/-! Errors and the phase ERR (60_exceptions.md R183 to R185): what each cause of an error makes of the state, and what an
edge in ERR does. -/

namespace Sys2Proof.Machine

theorem legalLen_iff (len : BitVec 4) : legalLen len = true ↔ 1 ≤ len.toNat ∧ len.toNat ≤ 8 := by
  simp [legalLen]

/-! ### Causes of an error (R148 to R150, R183) -/

/-- Error entry shows its code in the status word (R181, R182). -/
theorem State.raiseError_reports (s : State) (code : ErrorCode) :
    (s.raiseError code).PHASE = .err ∧ (s.raiseError code).status.extractLsb' 4 3 = code.toBits :=
  ⟨rfl, State.status_errc _⟩

/-- In ERR every command but INIT is dropped (R184). -/
theorem exec_of_err {i : Instr} {s : State} (err : s.PHASE = .err) (notInit : i ≠ .init) : exec i s = .next s := by
  simpa [err, notInit] using exec_cases (i := i) (s := s) rfl

section
variable {i : Instr} {s : State} (ready : s.cmdReady = true) (taken : ¬(s.PHASE = .err ∧ i ≠ .nop ∧ i ≠ .init))
include ready taken

/-- A ready core that does not drop a command is in ABS or DONE (R183, the first check). -/
theorem State.abs_or_done_of_not_dropped (effective : i ≠ .nop ∧ i ≠ .init) : s.PHASE = .abs ∨ s.PHASE = .done := by
  have notErr : s.PHASE ≠ .err := fun err => taken ⟨err, effective⟩
  simpa [notErr] using s.cmdReady_iff.mp ready

/-- A ready core that takes an ABSORB or FINAL and has no finished computation is in ABS (R183, the third check). -/
theorem State.abs_of_not_finished
    (unfinished : ¬(s.PHASE = .done ∧ (i = .final ∨ ∃ len data, i = .absorb len data)))
    (used : i = .final ∨ ∃ len data, i = .absorb len data) : s.PHASE = .abs := by
  have effective : i ≠ .nop ∧ i ≠ .init := by
    rcases used with rfl | ⟨len, data, rfl⟩ <;> simp
  exact (State.abs_or_done_of_not_dropped ready taken effective).resolve_right fun done => unfinished ⟨done, used⟩

end

theorem exec_final_of_abs {s : State} (abs : s.PHASE = .abs) :
    exec .final s = .next (s.absorbBlock (pad s.BUF s.COUNT.toNat) .permFin) := by
  have ready : s.cmdReady = true := s.cmdReady_iff.mpr (.inl abs)
  simp [exec, execFinal, s.onTransfer_ready _ ready, abs]

theorem exec_absorb_of_abs {s : State} (abs : s.PHASE = .abs) (len : BitVec 4) (data : BitVec 64) :
    exec (.absorb len data) s = .next (absorbBeat s len data) := by
  have ready : s.cmdReady = true := s.cmdReady_iff.mpr (.inl abs)
  simp [exec, execAbsorb, s.onTransfer_ready _ ready, abs]

/-- A finished computation is not reused (R148, R149). -/
theorem exec_final_or_absorb_of_done {i : Instr} {s : State} (done : s.PHASE = .done)
    (used : i = .final ∨ ∃ len data, i = .absorb len data) : exec i s = .next (s.raiseError .sequence) := by
  have ready : s.cmdReady = true := s.cmdReady_iff.mpr (.inr (.inl done))
  rcases used with rfl | ⟨len, data, rfl⟩
  · simp [exec, execFinal, s.onTransfer_ready _ ready, done]
  · simp [exec, execAbsorb, s.onTransfer_ready _ ready, done]

theorem exec_of_reserved {i : Instr} {s : State} (phase : s.PHASE = .abs ∨ s.PHASE = .done)
    (reserved : (∃ sub, i = .reservedLow sub) ∨ ∃ sub, i = .reservedHigh sub) :
    exec i s = .next (s.raiseError .illegalOp) := by
  have raises := congrArg (Host.Outcome.next (φ := Fault) (ρ := Refusal)) (reservedOp_of_abs_or_done phase)
  rcases reserved with ⟨sub, rfl⟩ | ⟨sub, rfl⟩ <;> exact raises

theorem absorbBeat_of_illegal {s : State} {len : BitVec 4} (illegal : legalLen len = false) (data : BitVec 64) :
    absorbBeat s len data = s.raiseError .badLen := by
  simpa [illegal] using absorbBeat_cases s len data

theorem absorbBeat_of_crossing {s : State} {len : BitVec 4} (legal : legalLen len = true)
    (crossing : 136 < s.COUNT.toNat + len.toNat) (data : BitVec 64) :
    absorbBeat s len data = s.raiseError .overflow := by
  simpa [legal, crossing, crossing.ne', crossing.not_gt] using absorbBeat_cases s len data

theorem absorbBeat_PHASE_ne_err {s : State} {len : BitVec 4} (abs : s.PHASE = .abs) (legal : legalLen len = true)
    (fits : s.COUNT.toNat + len.toNat ≤ 136) (data : BitVec 64) : (absorbBeat s len data).PHASE ≠ .err := by
  rcases absorbBeat_cases s len data with ⟨illegal, -⟩ | ⟨-, crossing, -⟩ | ⟨-, -, fills⟩ | ⟨-, -, stages⟩
  · simp [legal] at illegal
  · omega
  · simp [fills]
  · simp [stages, abs]

/-! ### The order of the checks (R183) -/

/-- A reset edge ends in ABS and a busy edge in ABS, DONE or its own phase (R144). -/
theorem step_PHASE_ne_err_of_rst_or_busy {s t : State} (next : step s = .next t)
    (noTransfer : s.portInput.rst = true ∨ s.busy = true) : t.PHASE ≠ .err := by
  rcases step_cases next with ⟨-, reset⟩ | ⟨-, -, fault⟩ | ⟨-, -, busy, round⟩ | ⟨noRst, -, ready, -⟩ |
    ⟨noRst, -, ready, -⟩
  · cases reset
    simp
  · cases fault
  · cases round
    exact State.busyStep_PHASE_ne_err (s := s.takeInput) busy
  · simp [noRst, ready] at noTransfer
  · simp [noRst, ready] at noTransfer

/-- Settles O44, check by check: each cause leaves the phases and operands in which its own equation of `exec` holds. -/
theorem oneErrorIsReportedInPriorityOrder : Obligations.OneErrorIsReportedInPriorityOrder := by
  refine ⟨fun i s ready => ?command, fun s t => step_PHASE_ne_err_of_rst_or_busy⟩
  case command =>
    split_ifs with dropped reserved finished badLen overflow
    · obtain ⟨err, -, notInit⟩ := dropped
      exact ⟨s, exec_of_err err notInit, rfl⟩
    · have effective : i ≠ .nop ∧ i ≠ .init := by
        rcases reserved with ⟨sub, rfl⟩ | ⟨sub, rfl⟩ <;> simp
      have phase := State.abs_or_done_of_not_dropped ready dropped effective
      exact ⟨_, exec_of_reserved phase reserved, s.raiseError_reports _⟩
    · obtain ⟨done, used⟩ := finished
      exact ⟨_, exec_final_or_absorb_of_done done used, s.raiseError_reports _⟩
    · obtain ⟨len, data, rfl, illegal⟩ := badLen
      have abs := State.abs_of_not_finished ready dropped finished (.inr ⟨len, data, rfl⟩)
      have raises : absorbBeat s len data = s.raiseError .badLen :=
        absorbBeat_of_illegal (by simpa [← legalLen_iff] using illegal) data
      exact ⟨_, exec_absorb_of_abs abs len data, raises ▸ s.raiseError_reports .badLen⟩
    · obtain ⟨len, data, rfl, crossing⟩ := overflow
      have abs := State.abs_of_not_finished ready dropped finished (.inr ⟨len, data, rfl⟩)
      have legal : legalLen len = true := by simpa [← legalLen_iff] using badLen
      have raises : absorbBeat s len data = s.raiseError .overflow := absorbBeat_of_crossing legal crossing data
      exact ⟨_, exec_absorb_of_abs abs len data, raises ▸ s.raiseError_reports .overflow⟩
    · cases i with
      | nop => exact ⟨s, rfl, .inl ⟨rfl, rfl⟩⟩
      | init => exact ⟨s.clear, exec_init_of_ready ready, .inr (by simp)⟩
      | absorb len data =>
        have abs := State.abs_of_not_finished ready dropped finished (.inr ⟨len, data, rfl⟩)
        have legal : legalLen len = true := by simpa [← legalLen_iff] using badLen
        have fits : s.COUNT.toNat + len.toNat ≤ 136 := by simpa using overflow
        exact ⟨_, exec_absorb_of_abs abs len data, .inr (absorbBeat_PHASE_ne_err abs legal fits data)⟩
      | final =>
        have abs := State.abs_of_not_finished ready dropped finished (.inl rfl)
        exact ⟨_, exec_final_of_abs abs, .inr (by simp)⟩
      | reservedLow sub => exact absurd (.inl ⟨sub, rfl⟩) reserved
      | reservedHigh sub => exact absurd (.inr ⟨sub, rfl⟩) reserved

/-! ### In ERR and out of it (R184, R185) -/

/-- Reset and a transferred INIT reach the reset registers. -/
theorem step_of_rst_or_init {s : State} (cleared : s.portInput.rst = true ∨ s.transfers = some .init) :
    step s = .next { State.reset with inputs := s.inputs.tail } := by
  rcases cleared with rst | init
  case inl => exact step_of_rst rst
  case inr =>
    obtain ⟨-, launched, ready, -, -⟩ := State.transfers_eq_some_iff.mp init
    have clears : exec .init s.takeInput = .next s.takeInput.clear :=
      exec_init_of_ready (s := s.takeInput) (s.cmdReady_iff_not_busy.mpr ready)
    rw [step_of_transfers init, clears, ← s.takeInput.clear_of_launched launched, State.resetEdge_eq_reset]
    rfl

/-- Without reset and INIT an edge in ERR keeps every register. -/
theorem step_of_err {s : State} (launched : s.launched = true) (err : s.PHASE = .err)
    (noRst : s.portInput.rst = false) (notInit : s.transfers ≠ some .init) : step s = .next s.takeInput := by
  cases transfer : s.transfers with
  | none =>
    have ready : s.busy = false := s.cmdReady_iff_not_busy.mp (s.cmdReady_iff.mpr (.inr (.inr err)))
    exact step_of_no_transfer_or_nop noRst launched ready (.inl transfer)
  | some i =>
    have kept : i ≠ .init := fun init => notInit (transfer.trans (congrArg some init))
    exact (step_of_transfers transfer).trans (exec_of_err (s := s.takeInput) err kept)

/-- Settles O45: an edge in ERR is `step_of_rst_or_init` or else `step_of_err`. -/
theorem onlyInitAndResetLeaveTheErrorPhase : Obligations.OnlyInitAndResetLeaveTheErrorPhase := by
  refine ⟨fun i s err notInit => exec_of_err err notInit, fun s t launched err next => ?edge⟩
  case edge =>
    by_cases cleared : s.portInput.rst = true ∨ s.transfers = some .init
    case pos =>
      cases next.symm.trans (step_of_rst_or_init cleared)
      exact .inr ⟨rfl, cleared⟩
    case neg =>
      obtain ⟨noRst, notInit⟩ : s.portInput.rst = false ∧ s.transfers ≠ some .init := by simpa using cleared
      cases next.symm.trans (step_of_err launched err noRst notInit)
      exact .inl ⟨rfl, noRst, notInit⟩

end Sys2Proof.Machine
end

section
/-! Reset edges (70_reset_and_hazards.md R200, R201): what one of them does, and a run of several of them. -/

namespace Sys2Proof.Machine

/-! ### One reset edge (R200) -/

theorem State.transfers_of_rst {s : State} (rst : s.portInput.rst = true) : s.transfers = none := by
  refine Option.eq_none_iff_forall_ne_some.mpr fun i transfer => ?_
  obtain ⟨noRst, -⟩ := State.transfers_eq_some_iff.mp transfer
  simp [rst] at noRst

/-- INIT leaves a launched core as a reset edge does (R147, R200). -/
theorem exec_init_of_launched {s : State} (ready : s.cmdReady = true) (launched : s.launched = true) :
    exec .init s = .next { State.reset with inputs := s.inputs } := by
  rw [exec_init_of_ready ready, ← s.clear_of_launched launched, s.resetEdge_eq_reset]

/-- Settles O27: the next state is that of `step_of_rst`, a launched core in ABS with every register cleared; INIT
reaches it by `exec_init_of_launched`. -/
theorem resetEdgeLoadsTheResetValues : Obligations.ResetEdgeLoadsTheResetValues := by
  refine ⟨fun s rst => ⟨State.transfers_of_rst rst, _, step_of_rst rst, rfl, State.reset_status, rfl, ?digest,
    fun noRst valid => ?nextCommand⟩, fun s => exec_init_of_launched⟩
  case digest => exact State.digest_of_not_done (by simp)
  case nextCommand => exact State.transfers_eq_some_iff.mpr ⟨noRst, rfl, rfl, valid, rfl⟩

/-! ### Reset held (R201) -/

/-- Behind `k` edges the ports hold the value driven at edge `k` (R33). -/
theorem State.portInput_of_inputs_eq_drop {t : State} {ports : List PortInput} {k : Nat} (driven : k < ports.length)
    (left : t.inputs = ports.drop k) : t.portInput = ports[k] := by
  rw [State.portInput, left, List.drop_eq_getElem_cons driven]

/-- Edge `n` of a held reset gives the reset state, whatever the edges before it have made of the registers. -/
theorem step_of_held_rst {t : State} {ports : List PortInput} {n : Nat} (driven : n < ports.length)
    (held : ∀ p ∈ ports.take (n + 1), p.rst = true) (left : t.inputs = ports.drop n) :
    step t = .next { State.reset with inputs := ports.drop (n + 1) } := by
  have rst : t.portInput.rst = true := by
    rw [State.portInput_of_inputs_eq_drop driven left]
    exact held _ (List.mem_take_iff_getElem.mpr ⟨n, by omega, rfl⟩)
  rw [step_of_rst rst, left, List.tail_drop]

/-- A reset held for `n + 1` edges ends in the reset state, by induction on the edges behind the first. -/
theorem run_of_held_rst {s : State} {n : Nat} (driven : n < s.inputs.length)
    (held : ∀ p ∈ s.inputs.take (n + 1), p.rst = true) :
    Sys2Proof.core.run (n + 1) s = .next { State.reset with inputs := s.inputs.drop (n + 1) } := by
  induction n with
  | zero => exact run_succ_of_next (step_of_held_rst driven held rfl) 0
  | succ n ih =>
    have before := ih (by omega) fun p early => held p (List.take_subset_take_left _ (Nat.le_succ _) early)
    rw [run_add_of_next before 1]
    exact run_succ_of_next (step_of_held_rst driven held rfl) 0

/-- Settles O28: one edge is `step_of_rst`, several are `run_of_held_rst`. -/
theorem resetAbortsAndHoldingItIsIdempotent : Obligations.ResetAbortsAndHoldingItIsIdempotent :=
  ⟨fun _ => step_of_rst, fun _ _ => run_of_held_rst⟩

end Sys2Proof.Machine
end

section
/-! The core at rest (10_state.md R34, R35, 41_sponge.md R145, 70_reset_and_hazards.md R202): the reset values, the edge
and the outputs before the first reset, commands while the core is busy, and what an invariant state shows then. -/

namespace Sys2Proof.Machine

/-! ### The reset values (R35) -/

/-- Settles O26: the registers by `zeroLanes_getElem` and `zeroBlock_getElem`, the outputs as functions of them. -/
theorem resetStateHoldsTheResetValues : Obligations.ResetStateHoldsTheResetValues :=
  ⟨fun i => zeroLanes_getElem i i.isLt, fun k => zeroBlock_getElem k k.isLt, rfl, rfl, rfl, rfl, rfl,
    State.reset_status, State.digest_of_not_done (by decide)⟩

/-- A cleared state meets the invariants (R34, R35). -/
theorem State.Inv_clear (s : State) : s.clear.Inv :=
  ⟨by simp, fun k _ => zeroBlock_getElem k k.isLt, fun _ => ⟨rfl, rfl⟩, fun _ => rfl, by simp⟩

/-- Settles O47: the reset state is cleared. -/
theorem resetStateMeetsTheInvariants : Obligations.ResetStateMeetsTheInvariants := State.reset.Inv_clear

/-! ### Before the first reset edge (R202, R203) -/

theorem step_of_unlaunched {s : State} (noRst : s.portInput.rst = false) (unlaunched : s.launched = false) :
    step s = .fault .registersUnspecified := by
  simpa [noRst, unlaunched] using step_cases (s := s) rfl

theorem State.observe_of_unlaunched {α : Type} {s : State} (unlaunched : s.launched = false) (f : State → α) :
    s.observe f = .error (.fault .registersUnspecified) := by
  simp [State.observe, unlaunched]

/-- Settles O29: the edge is `step_of_unlaunched`, a read `State.observe_of_unlaunched`, the reset `step_of_rst`. -/
theorem nothingRunsBeforeTheFirstReset : Obligations.NothingRunsBeforeTheFirstReset :=
  fun _ unlaunched => ⟨fun noRst => step_of_unlaunched noRst unlaunched, State.observe_of_unlaunched unlaunched _,
    State.observe_of_unlaunched unlaunched _, State.observe_of_unlaunched unlaunched _,
    fun rst => ⟨_, step_of_rst rst, rfl⟩⟩

/-! ### Commands and the transfer rule (R144 to R146) -/

/-- Settles O30: the port values are the first of the list, and the edge is `step_of_command`. -/
theorem stepRunsTheDecodedCommand : Obligations.StepRunsTheDecodedCommand := by
  intro s p rest launched ready inputs noRst valid
  have port : s.portInput = p := by rw [State.portInput, inputs]
  have edge : step s = exec (decode p.cmd) { s with inputs := rest } := by
    rw [step_of_command (port ▸ noRst) launched (s.cmdReady_iff_not_busy.mp ready) (port ▸ valid), port,
      State.takeInput, inputs, List.tail_cons]
  refine ⟨edge, fun i decoded => ?_⟩
  rw [edge, decoded]

/-- Settles O33: NOP does nothing anywhere, and the effect of every other command waits for a transfer. -/
theorem commandsChangeNothingWhileBusy : Obligations.CommandsChangeNothingWhileBusy := by
  intro i s busy
  have notReady : s.cmdReady = false := by simp [State.cmdReady, busy]
  cases i with
  | nop => rfl
  | init => exact congrArg _ (s.onTransfer_busy _ notReady)
  | absorb len data => exact congrArg _ (s.onTransfer_busy _ notReady)
  | final => exact congrArg _ (s.onTransfer_busy _ notReady)
  | reservedLow sub => exact congrArg _ (s.onTransfer_busy _ notReady)
  | reservedHigh sub => exact congrArg _ (s.onTransfer_busy _ notReady)

/-- Settles O36: NOP answers its state by definition, and the decoder reads a NOP from op 0x0 alone. -/
theorem nopChangesNothing : Obligations.NopChangesNothing := by
  refine ⟨fun s => rfl, fun w => decode_of_op_nop, fun t next => ?status⟩
  case status =>
    cases next
    exact State.reset_status

/-! ### The outputs while busy (R205) -/

/-- Settles O35: busy leaves COUNT zero and shuts out ERR, so that every field of the status word is known. -/
theorem busyOutputsAreConstant : Obligations.BusyOutputsAreConstant := by
  intro s inv busy
  obtain ⟨-, -, empty, -, error⟩ := inv
  obtain ⟨count, -⟩ := empty busy
  have phase := s.busy_iff.mp busy
  have noError : s.ERRC = .none := by
    by_contra latched
    simp [error.mp latched] at phase
  refine ⟨noError, ?status, by simp [State.cmdReady, busy], State.digest_of_not_done ?masked⟩
  case status =>
    rcases phase with phase | phase <;>
      simp [State.status, State.cmdReady, State.busy, State.dvalid, State.errFlag, count, noError, phase, Phase.busy,
        ErrorCode.toBits]
  case masked => rcases phase with phase | phase <;> simp [phase]

end Sys2Proof.Machine
end

section
/-! Encoder and decoder (30_encoding.md R70 to R74): the fields of a packed word, the significant data bits bit by bit,
and a word's command as the command of the word with its ignored bits cleared (`decode_clearIgnored`). -/

namespace Sys2Proof

/-! ### The fields of a packed word (R70) -/

@[simp] theorem lenField_packFields (op len : BitVec 4) (data : BitVec 64) :
    lenField (packFields op len data) = len := by
  calc (packFields op len data).extractLsb' 64 4
    _ = (op ++ len).extractLsb' 0 4 := BitVec.extractLsb'_append_eq_of_le (by decide)
    _ = len := BitVec.extractLsb'_append_eq_right

@[simp] theorem dataField_packFields (op len : BitVec 4) (data : BitVec 64) :
    dataField (packFields op len data) = data :=
  BitVec.extractLsb'_append_eq_right

theorem dataField_getLsbD {k : Nat} (h : k < 64) (w : CmdWord) : (dataField w).getLsbD k = w.getLsbD k := by
  simp [dataField, h]

/-- Below the op field a packed word without operands has no bit set. -/
theorem packFields_zero_getLsbD {k : Nat} (h : k < 68) (op : BitVec 4) :
    (packFields op 0#4 0#64).getLsbD k = false := by
  simp only [packFields, BitVec.getLsbD_append, BitVec.getLsbD_zero]
  split_ifs with inData inLen
  · rfl
  · rfl
  · omega

/-! ### The significant data bits (R73, R74) -/

theorem significantData_getLsbD (len : BitVec 4) (data : BitVec 64) (i : Nat) :
    (significantData len data).getLsbD i = (decide (i < 8 * len.toNat) && data.getLsbD i) := by
  rw [significantData, BitVec.getLsbD_and, BitVec.getLsbD_ofNat, Nat.testBit_two_pow_sub_one]
  by_cases inWord : i < 64
  case pos => simp [inWord, Bool.and_comm]
  case neg => simp [BitVec.getLsbD_of_ge data i (by omega)]

/-- The data fits its length exactly when every bit from `8·len` on is zero. -/
theorem dataFits_iff (len : BitVec 4) (data : BitVec 64) :
    dataFits len data = true ↔ ∀ i, 8 * len.toNat ≤ i → data.getLsbD i = false := by
  rw [dataFits, decide_eq_true_iff]
  constructor
  case mp =>
    intro bound i above
    exact Nat.testBit_lt_two_pow (bound.trans_le (Nat.pow_le_pow_right (by decide) above))
  case mpr => exact fun clear => Nat.lt_pow_two_of_testBit _ clear

theorem dataFits_significantData (len : BitVec 4) (data : BitVec 64) :
    dataFits len (significantData len data) = true := by
  refine (dataFits_iff _ _).mpr fun i above => ?_
  simp [significantData_getLsbD, above.not_gt]

theorem significantData_of_dataFits {len : BitVec 4} {data : BitVec 64} (fits : dataFits len data = true) :
    significantData len data = data := by
  refine BitVec.eq_of_getLsbD_eq fun i hi => ?_
  rw [significantData_getLsbD]
  by_cases below : i < 8 * len.toNat
  case pos => simp [below]
  case neg => simp [below, (dataFits_iff len data).mp fits i (by omega)]

/-- Data that agree on the significant bits are the same data to the decoder. -/
theorem significantData_congr {len : BitVec 4} {data data' : BitVec 64}
    (same : ∀ k, k < 64 → k < 8 * len.toNat → data.getLsbD k = data'.getLsbD k) :
    significantData len data = significantData len data' := by
  refine BitVec.eq_of_getLsbD_eq fun k hk => ?_
  simp only [significantData_getLsbD]
  by_cases below : k < 8 * len.toNat
  case pos => rw [same k hk below]
  case neg => simp [below]

/-! ### Decoding an encoding (R70 to R73) -/

/-- Settles O1: the encoder's op field selects the command's own case of the decoder, and the significant bits of
data that fits are all of it. -/
theorem decodeOfEncodeIsTheCommand : Obligations.DecodeOfEncodeIsTheCommand := by
  intro i wellFormed
  cases i with
  | nop => decide
  | init => decide
  | absorb len data =>
    rw [encode, decode_of_op_absorb (opField_packFields _ _ _), lenField_packFields, dataField_packFields,
      significantData_of_dataFits wellFormed]
  | final => decide
  | reservedLow sub => revert sub; decide
  | reservedHigh sub => revert sub; decide

/-! ### Encoding what was decoded (R74) -/

theorem clearIgnored_of_op_absorb {w : CmdWord} (h : opField w = 0x2#4) :
    clearIgnored w = packFields 0x2#4 (lenField w) (significantData (lenField w) (dataField w)) := by
  simp [clearIgnored, h]

theorem clearIgnored_of_op_ne_absorb {w : CmdWord} (h : opField w ≠ 0x2#4) :
    clearIgnored w = packFields (opField w) 0#4 0#64 := by
  simp [clearIgnored, h]

@[simp] theorem opField_clearIgnored (w : CmdWord) : opField (clearIgnored w) = opField w := by
  unfold clearIgnored
  split <;> exact opField_packFields _ _ _

theorem decode_wellFormed (w : CmdWord) : (decode w).wellFormed = true := by
  unfold decode
  split
  case h_3 => exact dataFits_significantData _ _
  all_goals rfl

/-- The sub-opcode is the part of the op field that its row leaves open. -/
theorem extractLsb'_op_eq (w : CmdWord) {n : Nat} (h : n ≤ 4) :
    w.extractLsb' 68 n = (opField w).extractLsb' 0 n := by
  rw [opField, Machine.extractLsb'_extractLsb' w (by omega)]

theorem reservedLow_op : ∀ op : BitVec 4, 4 ≤ op.toNat → op.toNat < 8 → 0b01#2 ++ op.extractLsb' 0 2 = op := by decide

theorem reservedHigh_op : ∀ op : BitVec 4, 8 ≤ op.toNat → 0b1#1 ++ op.extractLsb' 0 3 = op := by decide

/-- Encoding a decoded word clears its ignored bits. -/
theorem encode_decode (w : CmdWord) : encode (decode w) = clearIgnored w := by
  by_cases absorb : opField w = 0x2#4
  case pos => rw [decode_of_op_absorb absorb, clearIgnored_of_op_absorb absorb, encode]
  case neg =>
    rw [clearIgnored_of_op_ne_absorb absorb]
    rcases Nat.lt_or_ge (opField w).toNat 4 with named | reserved
    · have op_value : opField w = 0x0#4 ∨ opField w = 0x1#4 ∨ opField w = 0x3#4 := by
        generalize opField w = op at absorb named
        revert op; decide
      rcases op_value with h | h | h
      · rw [decode_of_op_nop h, h, encode]
      · rw [decode_of_op_init h, h, encode]
      · rw [decode_of_op_final h, h, encode]
    · rcases Nat.lt_or_ge (opField w).toNat 8 with low | high
      · rw [decode_of_op_reservedLow reserved low, encode, extractLsb'_op_eq w (by decide),
          reservedLow_op _ reserved low]
      · rw [decode_of_op_reservedHigh high, encode, extractLsb'_op_eq w (by decide), reservedHigh_op _ high]

/-- Settles O2: the three claims on fields are those of `clearIgnored`, by `encode_decode`. -/
theorem encodeOfDecodeClearsTheIgnoredBits : Obligations.EncodeOfDecodeClearsTheIgnoredBits := by
  intro w
  refine ⟨decode_wellFormed w, encode_decode w, ?op, fun absorb => ⟨?len, fun k inData below => ?data⟩⟩
  case op => rw [encode_decode, opField_clearIgnored]
  case len => rw [encode_decode, clearIgnored_of_op_absorb absorb, lenField_packFields]
  case data =>
    rw [encode_decode, clearIgnored_of_op_absorb absorb, ← dataField_getLsbD inData, dataField_packFields,
      significantData_getLsbD, dataField_getLsbD inData]
    simp [below]

/-! ### The ignored bits (R73, R74) -/

/-- A word stands for the same command as the word with its ignored bits cleared. -/
theorem decode_clearIgnored (w : CmdWord) : decode (clearIgnored w) = decode w := by
  rw [← encode_decode, decodeOfEncodeIsTheCommand _ (decode_wellFormed w)]

theorem clearIgnored_congr {w w' : CmdWord} (op : opField w = opField w')
    (operands : opField w = 0x2#4 → lenField w = lenField w' ∧
      ∀ k, k < 64 → k < 8 * (lenField w).toNat → w.getLsbD k = w'.getLsbD k) :
    clearIgnored w = clearIgnored w' := by
  by_cases absorb : opField w = 0x2#4
  case pos =>
    obtain ⟨len, data⟩ := operands absorb
    have significant : significantData (lenField w) (dataField w) = significantData (lenField w) (dataField w') :=
      significantData_congr fun k inData below => by
        rw [dataField_getLsbD inData, dataField_getLsbD inData, data k inData below]
    rw [clearIgnored_of_op_absorb absorb, clearIgnored_of_op_absorb (op ▸ absorb), significant, len]
  case neg =>
    rw [clearIgnored_of_op_ne_absorb absorb, clearIgnored_of_op_ne_absorb (op ▸ absorb), op]

/-- An edge reads a presented word through its command only. -/
theorem Machine.step_present_congr {w w' : CmdWord} (same : decode w = decode w') (s : Machine.State)
    (rst valid : Bool) : Machine.step (s.present ⟨rst, valid, w⟩) = Machine.step (s.present ⟨rst, valid, w'⟩) := by
  cases rst with
  | true =>
    have reset (x : CmdWord) := Machine.step_of_rst (s := s.present ⟨true, valid, x⟩) rfl
    exact (reset w).trans (reset w').symm
  | false =>
    cases launched : s.launched with
    | false =>
      have fault (x : CmdWord) := Machine.step_of_unlaunched (s := s.present ⟨false, valid, x⟩) rfl launched
      exact (fault w).trans (fault w').symm
    | true =>
      cases busy : s.busy with
      | true =>
        have round (x : CmdWord) := Machine.step_of_busy (s := s.present ⟨false, valid, x⟩) rfl launched busy
        exact (round w).trans (round w').symm
      | false =>
        cases valid with
        | true =>
          have transfer (x : CmdWord) :
              Machine.step (s.present ⟨false, true, x⟩) = Machine.exec (decode x) s.takeInput :=
            Machine.step_of_command rfl launched busy rfl
          rw [transfer, transfer, same]
        | false =>
          have hold (x : CmdWord) := Machine.step_of_hold (s := s.present ⟨false, false, x⟩) rfl launched busy rfl
          exact (hold w).trans (hold w').symm

/-- An encoding of no ABSORB is its op field alone. -/
theorem encode_of_not_absorb {i : Instr} (h : ∀ len data, i ≠ .absorb len data) :
    ∃ op, encode i = packFields op 0#4 0#64 := by
  cases i with
  | absorb len data => exact absurd rfl (h len data)
  | nop => exact ⟨_, rfl⟩
  | init => exact ⟨_, rfl⟩
  | final => exact ⟨_, rfl⟩
  | reservedLow sub => exact ⟨_, rfl⟩
  | reservedHigh sub => exact ⟨_, rfl⟩

/-- Settles O3: the words have one and the same cleared word, hence the same command; an encoding is packed from its
op field and from operands that fit. -/
theorem ignoredBitsNeverChangeAnything : Obligations.IgnoredBitsNeverChangeAnything := by
  refine ⟨fun w w' op operands => ?words, fun i wellFormed => ⟨fun notAbsorb k below => ?bare,
    fun len data absorb k inData above => ?absorb⟩⟩
  case words =>
    have same : decode w = decode w' := by
      rw [← decode_clearIgnored w, clearIgnored_congr op operands, decode_clearIgnored]
    exact ⟨same, Machine.step_present_congr same⟩
  case bare =>
    obtain ⟨op, packed⟩ := encode_of_not_absorb notAbsorb
    rw [packed, packFields_zero_getLsbD below]
  case absorb =>
    subst absorb
    rw [encode, ← dataField_getLsbD inData, dataField_packFields]
    exact (dataFits_iff len data).mp wellFormed k above

/-! ### Words written out (R70, R71) -/

/-- Settles O5, word by word. -/
theorem wordsOfTheSpecDecode : Obligations.WordsOfTheSpecDecode := by
  unfold Obligations.WordsOfTheSpecDecode
  decide

/-- Bit `i` of a word is bit `i % 8` of its byte `i / 8`, the first byte at bits 7:0. -/
theorem wordOfBytes_getLsbD (bs : List Byte) {i : Nat} (h : i < 72) :
    (wordOfBytes bs).getLsbD i = (bs.getD (i / 8) 0#8).getLsbD (i % 8) := by
  induction bs generalizing i with
  | nil => simp [wordOfBytes]
  | cons b bs ih =>
    have unfolds : wordOfBytes (b :: bs) = (wordOfBytes bs <<< 8) ||| b.setWidth 72 := rfl
    rw [unfolds, BitVec.getLsbD_or, BitVec.getLsbD_shiftLeft, BitVec.getLsbD_setWidth]
    by_cases first : i < 8
    case pos => simp [h, first, Nat.div_eq_of_lt first, Nat.mod_eq_of_lt first]
    case neg =>
      have shifted : i / 8 = (i - 8) / 8 + 1 ∧ i % 8 = (i - 8) % 8 := by omega
      rw [ih (by omega), shifted.1, shifted.2, List.getD_cons_succ, BitVec.getLsbD_of_ge b i (by omega)]
      simp [h, first]

/-- Byte k of a word laid out: its bits from 8k on. -/
theorem layOut_getD (w : CmdWord) {k : Nat} (h : k < 9) :
    (layOut 72 w.toNat).getD k 0#8 = w.extractLsb' (8 * k) 8 := by
  have inWord : w.toNat % 2 ^ 72 = w.toNat := Nat.mod_eq_of_lt w.isLt
  have shift : (256 : Nat) ^ k = 2 ^ (8 * k) := (pow_mul 2 8 k).symm
  have nine : max 9 ((72 + 7) / 8) = 9 := by decide
  rw [BitVec.extractLsb', Nat.shiftRight_eq_div_pow, ← shift, layOut, inWord, nine]
  simp [h]

theorem wordOfBytes_layOut (w : CmdWord) : wordOfBytes (layOut 72 w.toNat) = w := by
  refine BitVec.eq_of_getLsbD_eq fun i hi => ?_
  rw [wordOfBytes_getLsbD _ hi, layOut_getD w (by omega), BitVec.getLsbD_extractLsb', Nat.div_add_mod]
  simp [Nat.mod_lt]

/-- Settles O6: nine bytes are laid out, and reading them back gives the word. -/
theorem presentedWordIsTheTableWord : Obligations.PresentedWordIsTheTableWord := by
  refine fun s w => ⟨?decoded, ?presented⟩
  case decoded =>
    have nine : (layOut 72 w.toNat).length = 9 := by simp [layOut]
    simp [decodeTableWord, decodeBytes, nine, wordOfBytes_layOut]
  case presented => rw [Machine.State.withFetchWord, wordOfBytes_layOut]

end Sys2Proof
end

section
/-! The permutation's tables and its linear steps (40_permutation.md R102, R104, R105 to R107, R110). The rho-pi loop is
read through what it has done after its first n iterations (`rhoPiAfter_lanes`): the visited lanes hold their rotated
sources, every other lane its input. -/

namespace Sys2Proof.Machine

/-! ### Tables (R102, R104) -/

/-- Settles O12, constant by constant and bit by bit. -/
theorem roundConstantsFollowTheLfsr : Obligations.RoundConstantsFollowTheLfsr := by
  unfold Obligations.RoundConstantsFollowTheLfsr
  decide

/-- Settles O13, over the 24 entries and the 25 lanes. -/
theorem pilnVisitsEveryOtherLaneOnce : Obligations.PilnVisitsEveryOtherLaneOnce := by
  unfold Obligations.PilnVisitsEveryOtherLaneOnce
  decide

/-! ### Theta is linear (R105) -/

theorem rotl64_xor (v w : Lane) (n : RotAmount) : rotl64 (v ^^^ w) n = rotl64 v n ^^^ rotl64 w n := by
  refine BitVec.eq_of_getLsbD_eq fun i hi => ?_
  have below_width : n.val < 64 := by omega
  simp only [rotl64_eq_rotateLeft, BitVec.getLsbD_xor, BitVec.getLsbD_rotateLeft_of_le below_width]
  by_cases wrapped : i < n.val
  case pos => simp [wrapped]
  case neg => simp [wrapped, hi]

/-- XOR of two states, lane by lane. -/
theorem zipWith_xor_getElem (A B : Lanes) (i : Nat) (h : i < 25) :
    (Vector.zipWith (· ^^^ ·) A B)[i] = A[i] ^^^ B[i] := by
  simp

theorem columnParity_xor (A B : Lanes) (x : Fin 5) :
    columnParity (Vector.zipWith (· ^^^ ·) A B) x = columnParity A x ^^^ columnParity B x := by
  simp only [columnParity, zipWith_xor_getElem]
  ac_rfl

theorem thetaDelta_xor (A B : Lanes) (x : Fin 5) :
    thetaDelta (Vector.zipWith (· ^^^ ·) A B) x = thetaDelta A x ^^^ thetaDelta B x := by
  simp only [thetaDelta, columnParity_xor, rotl64_xor]
  ac_rfl

/-- Settles O15: parities, rotations and XOR are all linear. -/
theorem thetaIsLinear : Obligations.ThetaIsLinear := by
  refine fun A B => Vector.ext fun i h => ?_
  simp only [theta_getElem, zipWith_xor_getElem, thetaDelta_xor]
  ac_rfl

/-! ### The rho-pi loop (R106) -/

/-- The lane whose input value iteration j moves: lane 1 at first, then the destination of the iteration before. -/
def rhoPiSource (j : Nat) : Fin 25 := if h : 0 < j ∧ j ≤ 24 then PILN[j - 1] else 1

theorem rhoPiSource_succ {j : Nat} (h : j < 24) : rhoPiSource (j + 1) = PILN[j] := by
  have counted : 0 < j + 1 ∧ j + 1 ≤ 24 := by omega
  simp [rhoPiSource, counted]

theorem PILN_injective : ∀ i j : Fin 24, PILN[i] = PILN[j] → i = j := by decide

/-- The lanes and the temporary behind the first n iterations on input A. -/
def rhoPiAfter (A : Lanes) (n : Nat) : Lanes × Lane := ((List.finRange 24).take n).foldl rhoPiIteration (A, A[1])

theorem rhoPiAfter_succ (A : Lanes) (n : Fin 24) :
    rhoPiAfter A (n.val + 1) = rhoPiIteration (rhoPiAfter A n.val) n := by
  have extends_by_one : (List.finRange 24).take (n.val + 1) = (List.finRange 24).take n.val ++ [n] := by
    rw [List.take_succ_eq_append_getElem (by simp)]
    simp
  rw [rhoPiAfter, extends_by_one, List.foldl_append]
  rfl

/-- Behind n iterations the temporary is the next source, the n visited lanes hold their rotated sources, and every
other lane is the input's. -/
theorem rhoPiAfter_lanes (A : Lanes) {n : Nat} (h : n ≤ 24) :
    (rhoPiAfter A n).2 = A[rhoPiSource n] ∧
    (∀ j : Fin 24, j.val < n → (rhoPiAfter A n).1[PILN[j]] = rotl64 A[rhoPiSource j] ROTC[j]) ∧
    (∀ l : Fin 25, (∀ j : Fin 24, j.val < n → PILN[j] ≠ l) → (rhoPiAfter A n).1[l] = A[l]) := by
  induction n with
  | zero => exact ⟨rfl, fun j hj => absurd hj (Nat.not_lt_zero _), fun l _ => rfl⟩
  | succ n ih =>
    obtain ⟨temporary, visited, others⟩ := ih (by omega)
    have unvisited : (rhoPiAfter A n).1[PILN[n]] = A[PILN[n]] :=
      others PILN[n] fun j hj same => absurd (PILN_injective j ⟨n, h⟩ same) (Fin.ne_of_lt hj)
    rw [rhoPiAfter_succ A ⟨n, h⟩]
    refine ⟨?temporary, fun j hj => ?visited, fun l hl => ?others⟩
    case temporary => exact unvisited.trans (getElem_congr_idx (rhoPiSource_succ h).symm)
    case visited =>
      by_cases last : j = ⟨n, h⟩
      case pos => subst last; simp [rhoPiIteration, temporary]
      case neg =>
        have before : j.val < n := (Nat.lt_succ_iff.mp hj).lt_of_ne fun same => last (Fin.ext same)
        have other_lane : PILN[n].val ≠ PILN[j].val := fun same =>
          last (PILN_injective j ⟨n, h⟩ (Fin.ext same.symm))
        refine Eq.trans ?_ (visited j before)
        exact Vector.getElem_set_ne PILN[n].isLt PILN[j].isLt other_lane
    case others =>
      refine Eq.trans ?_ (others l fun j hj => hl j (by omega))
      exact Vector.getElem_set_ne PILN[n].isLt l.isLt fun same => hl ⟨n, h⟩ (by simp) (Fin.ext same)

theorem rhoPi_eq_rhoPiAfter (A : Lanes) : rhoPi A = (rhoPiAfter A 24).1 := rfl

/-- Every lane of the loop's result: lane 0 is kept, the destination of iteration j takes its rotated source. -/
theorem rhoPi_destination (A : Lanes) (j : Fin 24) : (rhoPi A)[PILN[j]] = rotl64 A[rhoPiSource j] ROTC[j] :=
  (rhoPiAfter_lanes A le_rfl).2.1 j j.isLt

theorem rhoPi_lane_zero (A : Lanes) : (rhoPi A)[0] = A[0] :=
  (rhoPiAfter_lanes A le_rfl).2.2 0 fun j _ => (pilnVisitsEveryOtherLaneOnce.1 j)

/-! ### The closed form (R107) -/

/-- The destination of lane (x, y). -/
def piLane (x y : Fin 5) : Fin 25 := ⟨y.val + 5 * ((2 * x.val + 3 * y.val) % 5), by omega⟩

/-- The tables of the loop against those of the closed form: lane (0, 0) stays unrotated, and every other lane (x, y)
is the source of the iteration with its destination and its rotation. -/
theorem rhoPi_tables : ∀ x y : Fin 5,
    (piLane x y = 0 ∧ x.val + 5 * y.val = 0 ∧ rhoOffsets[x.val][y.val].val = 0) ∨
    ∃ j : Fin 24, PILN[j] = piLane x y ∧ (rhoPiSource j).val = x.val + 5 * y.val ∧
      rhoOffsets[x.val][y.val].val = ROTC[j].val := by
  decide

theorem rotOrKeep_zero {n : Fin 64} (h : n.val = 0) (v : Lane) : rotOrKeep v n = v := by simp [rotOrKeep, h]

theorem rotOrKeep_amount {n : Fin 64} {r : RotAmount} (h : n.val = r.val) (v : Lane) : rotOrKeep v n = rotl64 v r := by
  have positive : n.val ≠ 0 := by omega
  rw [rotOrKeep, dif_neg positive]
  exact congrArg (rotl64 v) (Subtype.ext h)

theorem rhoPi_closed (A : Lanes) (x y : Fin 5) :
    (rhoPi A)[piLane x y] = rotOrKeep A[x.val + 5 * y.val] rhoOffsets[x.val][y.val] := by
  rcases rhoPi_tables x y with ⟨destination, source, offset⟩ | ⟨j, destination, source, offset⟩
  · rw [rotOrKeep_zero offset]
    simp only [destination, source]
    exact rhoPi_lane_zero A
  · calc (rhoPi A)[piLane x y]
      _ = (rhoPi A)[PILN[j]] := getElem_congr_idx destination.symm
      _ = rotl64 A[(rhoPiSource j).val] ROTC[j] := rhoPi_destination A j
      _ = rotl64 A[x.val + 5 * y.val] ROTC[j] := by rw [getElem_congr_idx source]
      _ = rotOrKeep A[x.val + 5 * y.val] rhoOffsets[x.val][y.val] := (rotOrKeep_amount offset _).symm

/-- The wiring takes for destination i the lane that the pi map sends there. -/
theorem piLane_of_destination (i : Fin 25) :
    piLane ⟨(3 * (i.val / 5) + i.val % 5) % 5, Nat.mod_lt _ (by decide)⟩ ⟨i.val % 5, Nat.mod_lt _ (by decide)⟩ = i := by
  revert i; decide

theorem rhoPiWiring_getElem (A : Lanes) (i : Nat) (h : i < 25) :
    (rhoPiWiring A)[i] =
      rotOrKeep A[(3 * (i / 5) + i % 5) % 5 + 5 * (i % 5)] rhoOffsets[(3 * (i / 5) + i % 5) % 5][i % 5] := by
  simp only [rhoPiWiring, Vector.getElem_ofFn]

theorem rhoPi_eq_wiring (A : Lanes) : rhoPi A = rhoPiWiring A := by
  refine Vector.ext fun i h => ?_
  have destination := congrArg Fin.val (piLane_of_destination ⟨i, h⟩)
  have closed := rhoPi_closed A ⟨(3 * (i / 5) + i % 5) % 5, Nat.mod_lt _ (by decide)⟩ ⟨i % 5, Nat.mod_lt _ (by decide)⟩
  exact (getElem_congr_idx destination.symm).trans (closed.trans (rhoPiWiring_getElem A i h).symm)

/-- Settles O16: the closed form is `rhoPi_closed`, and the wiring reads it by destination. -/
theorem rhoPiLoopIsItsClosedForm : Obligations.RhoPiLoopIsItsClosedForm := ⟨rhoPi_closed, rhoPi_eq_wiring⟩

/-- No lane but lane 0 takes its value from lane 0. -/
theorem rhoPi_wiring_source_ne_zero : ∀ i : Fin 25, i ≠ 0 →
    (3 * (i.val / 5) + i.val % 5) % 5 + 5 * (i.val % 5) ≠ 0 := by
  decide

theorem rhoPi_set_lane_zero (A : Lanes) (v : Lane) (i : Fin 25) (h : i ≠ 0) :
    (rhoPi (A.set 0 v))[i] = (rhoPi A)[i] := by
  have source := rhoPi_wiring_source_ne_zero i h
  rw [rhoPi_eq_wiring, rhoPi_eq_wiring]
  refine (rhoPiWiring_getElem _ i i.isLt).trans (Eq.trans ?_ (rhoPiWiring_getElem A i i.isLt).symm)
  rw [Vector.getElem_set_ne _ _ source.symm]

/-- Settles O17: lane 0 is kept by `rhoPi_lane_zero` and is no other lane's source; the examples are evaluated. -/
theorem rhoPiKeepsLaneZero : Obligations.RhoPiKeepsLaneZero := by
  refine ⟨rhoPi_lane_zero, rhoPi_set_lane_zero, rhoPi_zeroLanes, ?ones, ?worked⟩
  case ones => decide
  case worked => decide

/-! ### A round (R110) -/

/-- Settles O20: the order is the definition; round 1 of round 0 of zero and the two orders of theta and chi are
evaluated. -/
theorem roundAppliesTheStepsInOrder : Obligations.RoundAppliesTheStepsInOrder := by
  refine ⟨round_eq, ?worked, ?orders⟩
  case worked =>
    rw [round_zeroLanes, round_eq]
    decide
  case orders => decide

end Sys2Proof.Machine
end

section
/-! Absorption in the byte view of the state (20_memory.md R51, 41_sponge.md R141). -/

namespace Sys2Proof.Machine

/-- Settles O10: a rate byte lies in a rate lane, whose block lane packs the block byte; a capacity byte lies in a
capacity lane. -/
theorem absorptionXorsBlockBytesIntoStateBytes : Obligations.AbsorptionXorsBlockBytesIntoStateBytes := by
  refine fun S blk => ⟨fun k => ?rate, fun k capacity => ?capacity⟩
  case rate =>
    have lane : k.val / 8 < 17 := by omega
    have byte : 8 * (k.val / 8) + k.val % 8 = k.val := Nat.div_add_mod _ _
    simp only [stateByte, absorb_getElem_rate S blk _ lane, BitVec.extractLsb'_xor,
      blockLane_extractLsb' blk _ _ (Nat.mod_lt k.val (by decide : 8 > 0)), byte]
    rfl
  case capacity =>
    have lane : 17 ≤ k.val / 8 := by omega
    rw [stateByte, absorb_getElem_capacity S blk _ lane, stateByte]

end Sys2Proof.Machine
end

section
/-! ABSORB and FINAL (41_sponge.md R148, R149): what a legal beat and the padded block make of the state, and what every
command that enters ERR leaves alone (60_exceptions.md R182). -/

namespace Sys2Proof.Machine

/-! ### A legal beat (R148) -/

theorem absorbBeat_of_staging {s : State} {len : BitVec 4} (legal : legalLen len = true)
    (room : s.COUNT.toNat + len.toNat < 136) (data : BitVec 64) :
    absorbBeat s len data = s.stage (writeBeat s.BUF s.COUNT.toNat len data) (s.COUNT + len.setWidth 8) := by
  simpa [legal, room, room.ne, room.not_gt] using absorbBeat_cases s len data

theorem absorbBeat_of_filling {s : State} {len : BitVec 4} (legal : legalLen len = true)
    (fills : s.COUNT.toNat + len.toNat = 136) (data : BitVec 64) :
    absorbBeat s len data = s.absorbBlock (writeBeat s.BUF s.COUNT.toNat len data) .permBlk := by
  simpa [legal, fills] using absorbBeat_cases s len data

/-- COUNT does not wrap while the beat stays within the block. -/
theorem count_add_len_toNat {count : BitVec 8} {len : BitVec 4} (room : count.toNat + len.toNat < 136) :
    (count + len.setWidth 8).toNat = count.toNat + len.toNat := by
  rw [BitVec.toNat_add, BitVec.toNat_setWidth]
  omega

/-- Settles O38: the beat is staged, and the buffer is `writeBeat_getElem` byte by byte. -/
theorem absorbStagesTheBeat : Obligations.AbsorbStagesTheBeat := by
  intro s len data abs one_le le_eight room
  have legal : legalLen len = true := (legalLen_iff len).mpr ⟨one_le, le_eight⟩
  refine ⟨_, (exec_absorb_of_abs abs len data).trans (congrArg _ (absorbBeat_of_staging legal room data)), rfl,
    count_add_len_toNat room, fun k => ?_⟩
  exact writeBeat_getElem s.BUF s.COUNT.toNat len data k k.isLt

/-- Settles O39: the block that is absorbed is `writeBeat`, whose beat reaches up to its last byte. -/
theorem absorbOfAFullBlockStartsThePermutation : Obligations.AbsorbOfAFullBlockStartsThePermutation := by
  intro s len data abs one_le le_eight fills
  have legal : legalLen len = true := (legalLen_iff len).mpr ⟨one_le, le_eight⟩
  refine ⟨writeBeat s.BUF s.COUNT.toNat len data, _, fun k => ?byte,
    (exec_absorb_of_abs abs len data).trans (congrArg _ (absorbBeat_of_filling legal fills data)), rfl, rfl, rfl⟩
  case byte =>
    have within : k.val < s.COUNT.toNat + len.toNat := k.isLt.trans_eq fills.symm
    refine (writeBeat_getElem s.BUF s.COUNT.toNat len data k k.isLt).trans ?_
    simp [within, beatByte]

/-- Settles O40, phase by phase; in ABS by the first check that fails. -/
theorem absorbErrorsWriteNothing : Obligations.AbsorbErrorsWriteNothing := by
  refine fun s len data => ⟨fun err => exec_of_err err (by simp), fun done => ?done, fun abs illegal => ?badLen,
    fun abs one_le le_eight crossing => ?overflow⟩
  case done => exact exec_final_or_absorb_of_done done (.inr ⟨len, data, rfl⟩)
  case badLen =>
    have refused : legalLen len = false := by
      rw [Bool.eq_false_iff, Ne, legalLen_iff]
      omega
    exact (exec_absorb_of_abs abs len data).trans (congrArg _ (absorbBeat_of_illegal refused data))
  case overflow =>
    have legal : legalLen len = true := (legalLen_iff len).mpr ⟨one_le, le_eight⟩
    exact (exec_absorb_of_abs abs len data).trans (congrArg _ (absorbBeat_of_crossing legal crossing data))

/-! ### FINAL (R149) -/

/-- Settles O41: the block is `pad`, byte by byte `pad_getElem`. -/
theorem finalAbsorbsThePaddedBlock : Obligations.FinalAbsorbsThePaddedBlock :=
  fun s => ⟨fun abs _ => ⟨pad s.BUF s.COUNT.toNat, fun k => pad_getElem s.BUF s.COUNT.toNat k k.isLt,
    exec_final_of_abs abs⟩, fun done => exec_final_or_absorb_of_done done (.inl rfl),
    fun err => exec_of_err err (by simp)⟩

/-! ### Error entry (R182) -/

theorem ErrorCode.toBits_ne_zero {code : ErrorCode} (h : code ≠ .none) : code.toBits ≠ 0#3 := by
  cases code with
  | none => exact absurd rfl h
  | illegalOp => decide
  | badLen => decide
  | overflow => decide
  | sequence => decide

/-- A command that enters ERR is an error entry and nothing else. -/
theorem exec_enters_err {i : Instr} {s t : State} (next : exec i s = .next t) (notErr : s.PHASE ≠ .err)
    (err : t.PHASE = .err) :
    ∃ code, t = s.raiseError code ∧ code ≠ .none ∧ (s.PHASE = .abs ∨ s.PHASE = .done) := by
  rcases exec_cases next with ⟨same, -⟩ | ⟨cleared, -⟩ | ⟨code, raised, isError, phase, -⟩ |
    ⟨len, data, -, -, -, -, filled⟩ | ⟨len, data, -, -, -, -, staged⟩ | ⟨-, -, padded⟩
  · cases same
    exact absurd err notErr
  · cases cleared
    simp at err
  · cases raised
    exact ⟨code, rfl, isError, phase⟩
  · cases filled
    simp at err
  · cases staged
    exact absurd ((s.stage_PHASE _ _).symm.trans err) notErr
  · cases padded
    simp at err

/-- Settles O43: the entry is `State.raiseError`, which shows its code and masks the digest. -/
theorem errorEntryChangesPhaseAndCodeOnly : Obligations.ErrorEntryChangesPhaseAndCodeOnly := by
  intro i s t next notErr err
  obtain ⟨code, rfl, isError, phase⟩ := exec_enters_err next notErr err
  refine ⟨rfl, isError, phase, rfl, rfl, ?shown, s.raiseError_digest code⟩
  case shown => exact State.status_errc _ ▸ ErrorCode.toBits_ne_zero isError

end Sys2Proof.Machine
end

section
/-! What every edge keeps (10_state.md R34): the invariants operation by operation, then over commands and edges; and
that a launched core never stops (60_exceptions.md R180). -/

namespace Sys2Proof.Machine

/-! ### The invariants under the operations (R34) -/

/-- Outside ERR no code is latched. -/
theorem State.Inv.noError {s : State} (inv : s.Inv) (notErr : s.PHASE ≠ .err) : s.ERRC = .none := by
  obtain ⟨-, -, -, -, error⟩ := inv
  by_contra latched
  exact notErr (error.mp latched)

theorem State.Inv.raiseError {s : State} (inv : s.Inv) (phase : s.PHASE = .abs ∨ s.PHASE = .done) {code : ErrorCode}
    (isError : code ≠ .none) : (s.raiseError code).Inv := by
  obtain ⟨count, behind, -, round, -⟩ := inv
  have ready : s.busy = false := s.cmdReady_iff_not_busy.mp (s.cmdReady_iff.mpr (by tauto))
  exact ⟨count, behind, fun busy => absurd busy (by simp [State.busy, Phase.busy]), fun _ => round ready,
    by simpa using isError⟩

theorem State.Inv.absorbBlock {s : State} (inv : s.Inv) (abs : s.PHASE = .abs) (blk : Block) {p : Phase}
    (permuting : p.busy = true) : (s.absorbBlock blk p).Inv := by
  have noError : s.ERRC = .none := inv.noError (by simp [abs])
  have notErr : p ≠ .err := by
    rintro rfl
    simp [Phase.busy] at permuting
  exact ⟨by simp, fun k _ => zeroBlock_getElem k k.isLt, fun _ => ⟨rfl, rfl⟩, fun _ => rfl, by simp [noError, notErr]⟩

/-- A staged beat ends below the block boundary and writes nothing behind its last byte. -/
theorem State.Inv.stage {s : State} (inv : s.Inv) (abs : s.PHASE = .abs) {len : BitVec 4} (data : BitVec 64)
    (room : s.COUNT.toNat + len.toNat < 136) :
    (s.stage (writeBeat s.BUF s.COUNT.toNat len data) (s.COUNT + len.setWidth 8)).Inv := by
  have noError : s.ERRC = .none := inv.noError (by simp [abs])
  obtain ⟨-, behind, -, round, -⟩ := inv
  have ready : s.busy = false := s.cmdReady_iff_not_busy.mp (s.cmdReady_iff.mpr (.inl abs))
  have advanced := count_add_len_toNat room
  have notBusy : (s.stage (writeBeat s.BUF s.COUNT.toNat len data) (s.COUNT + len.setWidth 8)).busy = false :=
    (State.busy_congr (State.stage_PHASE s _ _)).trans ready
  refine ⟨?count, fun k above => ?behind, fun busy => absurd (notBusy.symm.trans busy) (by decide),
    fun _ => (s.stage_RND _ _).trans (round ready), by simp [noError, abs]⟩
  case count =>
    simp only [State.stage_COUNT, advanced]
    omega
  case behind =>
    simp only [State.stage_COUNT, advanced] at above
    have outside : ¬(s.COUNT.toNat ≤ k.val ∧ k.val < s.COUNT.toNat + len.toNat) := by omega
    refine (writeBeat_getElem s.BUF s.COUNT.toNat len data k k.isLt).trans ?_
    rw [if_neg outside]
    exact behind k (by omega)

theorem Phase.afterPermutation_not_busy (p : Phase) : p.afterPermutation.busy = false := by
  cases p <;> rfl

theorem State.Inv.busyStep {s : State} (inv : s.Inv) (busy : s.busy = true) : s.busyStep.Inv := by
  have noError : s.ERRC = .none := inv.noError fun err => by simp [State.busy, err, Phase.busy] at busy
  obtain ⟨count, behind, empty, -, -⟩ := inv
  have notErr : s.busyStep.PHASE ≠ .err := State.busyStep_PHASE_ne_err busy
  refine ⟨count, behind, fun _ => empty busy, fun ready => ?round, ?error⟩
  case error => exact iff_of_false (fun latched => latched noError) notErr
  case round =>
    by_cases below : s.RND.val < 23
    case pos =>
      rw [State.busyStep_of_lt below] at ready
      exact absurd (ready.symm.trans busy) (by decide)
    case neg => simp [nextRound, below]

/-! ### Commands and edges -/

theorem exec_keeps_Inv {i : Instr} {s t : State} (inv : s.Inv) (next : exec i s = .next t) : t.Inv := by
  rcases exec_cases next with ⟨same, -⟩ | ⟨cleared, -⟩ | ⟨code, raised, isError, phase, -⟩ |
    ⟨len, data, -, abs, -, -, filled⟩ | ⟨len, data, -, abs, -, room, staged⟩ | ⟨-, abs, padded⟩
  · cases same
    exact inv
  · cases cleared
    exact s.Inv_clear
  · cases raised
    exact inv.raiseError phase isError
  · cases filled
    exact inv.absorbBlock abs _ rfl
  · cases staged
    exact inv.stage abs data room
  · cases padded
    exact inv.absorbBlock abs _ rfl

theorem step_keeps_Inv {s t : State} (inv : s.Inv) (next : step s = .next t) : t.Inv := by
  have taken : s.takeInput.Inv := inv
  rcases step_cases next with ⟨-, reset⟩ | ⟨-, -, fault⟩ | ⟨-, -, busy, round⟩ | ⟨-, -, -, -, command⟩ |
    ⟨-, -, -, -, hold⟩
  · cases reset
    exact s.takeInput.Inv_clear
  · cases fault
  · cases round
    exact taken.busyStep busy
  · exact exec_keeps_Inv taken command.symm
  · cases hold
    exact taken

/-- Settles O46: each of the five actions of an edge keeps the invariants. -/
theorem everyStepKeepsTheInvariants : Obligations.EveryStepKeepsTheInvariants := fun _ _ => step_keeps_Inv

/-! ### A launched core (R180) -/

/-- Every command answers a next state and leaves the core launched if it was. -/
theorem exec_next (i : Instr) (s : State) :
    ∃ t, exec i s = .next t ∧ t.launched = s.launched ∧ t.inputs = s.inputs := by
  rcases exec_cases (i := i) (s := s) rfl with ⟨same, -⟩ | ⟨cleared, -⟩ | ⟨code, raised, -⟩ |
    ⟨len, data, -, -, -, -, filled⟩ | ⟨len, data, -, -, -, -, staged⟩ | ⟨-, -, padded⟩
  · exact ⟨_, same, rfl, rfl⟩
  · exact ⟨_, cleared, rfl, rfl⟩
  · exact ⟨_, raised, rfl, rfl⟩
  · exact ⟨_, filled, rfl, rfl⟩
  · exact ⟨_, staged, s.stage_launched _ _, s.stage_inputs _ _⟩
  · exact ⟨_, padded, rfl, rfl⟩

/-- Every edge of a launched core leads to a launched next state and consumes one entry of the inputs. -/
theorem step_of_launched {s : State} (launched : s.launched = true) :
    ∃ t, step s = .next t ∧ t.launched = true ∧ t.inputs = s.inputs.tail := by
  rcases step_cases (s := s) rfl with ⟨-, reset⟩ | ⟨-, unlaunched, -⟩ | ⟨-, -, -, round⟩ | ⟨-, -, -, -, command⟩ |
    ⟨-, -, -, -, hold⟩
  · exact ⟨_, reset, rfl, rfl⟩
  · simp [launched] at unlaunched
  · exact ⟨_, round, launched, rfl⟩
  · obtain ⟨t, next, kept, inputs⟩ := exec_next (decode s.portInput.cmd) s.takeInput
    exact ⟨t, command.trans next, kept.trans launched, inputs⟩
  · exact ⟨_, hold, launched, rfl⟩

/-- Settles O48, by induction on the number of edges. -/
theorem launchedCoreNeverStops : Obligations.LaunchedCoreNeverStops := by
  intro s launched k
  induction k generalizing s with
  | zero => exact ⟨s, run_zero s, launched, id⟩
  | succ k ih =>
    obtain ⟨u, next, launched', -⟩ := step_of_launched launched
    obtain ⟨t, run, launched'', inv⟩ := ih u launched'
    exact ⟨t, (run_succ_of_next next k).trans run, launched'', fun held => inv (step_keeps_Inv held next)⟩

end Sys2Proof.Machine
end

section
/-! The capacity is isolated (20_memory.md R65): a command's effect on S is fixed by the other registers, and it is
nothing, zero, or the absorption of a block that S has no part in (`exec_lanes`). The ports' values to come have no part
in a command at all. -/

namespace Sys2Proof.Machine

/-- The state with other lanes in S and other port values to come. -/
def State.withLanes (s : State) (S : Lanes) (inputs : List PortInput) : State := { s with S := S, inputs := inputs }

/-- What a command does to the lanes, the same for every S. -/
def LanesEffect (f : Lanes → Lanes) : Prop := f = id ∨ (f = fun _ => zeroLanes) ∨ ∃ blk, f = (absorb · blk)

/-- No such effect carries the capacity into the rate. -/
theorem LanesEffect.rate_congr {f : Lanes → Lanes} (effect : LanesEffect f) {S S' : Lanes}
    (rate : ∀ i : Fin 17, S'[i.val] = S[i.val]) (i : Fin 17) : (f S')[i.val] = (f S)[i.val] := by
  rcases effect with rfl | rfl | ⟨blk, rfl⟩
  · exact rate i
  · rfl
  · simp only [absorb_getElem_rate _ blk i.val i.isLt, rate i]

/-- An ABSORB in phase ABS decides by COUNT and `len` alone. -/
theorem absorbBeat_lanes (s : State) (len : BitVec 4) (data : BitVec 64) :
    ∃ (u : State) (f : Lanes → Lanes), LanesEffect f ∧
      ∀ S ps, absorbBeat (s.withLanes S ps) len data = u.withLanes (f S) ps := by
  rcases absorbBeat_cases s len data with ⟨illegal, -⟩ | ⟨legal, crossing, -⟩ | ⟨legal, fills, -⟩ | ⟨legal, room, -⟩
  · exact ⟨s.raiseError .badLen, id, .inl rfl, fun S ps => absorbBeat_of_illegal illegal data⟩
  · exact ⟨s.raiseError .overflow, id, .inl rfl,
      fun S ps => absorbBeat_of_crossing (s := s.withLanes S ps) legal crossing data⟩
  · exact ⟨s.absorbBlock (writeBeat s.BUF s.COUNT.toNat len data) .permBlk, _,
      .inr (.inr ⟨writeBeat s.BUF s.COUNT.toNat len data, rfl⟩),
      fun S ps => absorbBeat_of_filling (s := s.withLanes S ps) legal fills data⟩
  · exact ⟨s.stage (writeBeat s.BUF s.COUNT.toNat len data) (s.COUNT + len.setWidth 8), id, .inl rfl,
      fun S ps => absorbBeat_of_staging (s := s.withLanes S ps) legal room data⟩

/-- A command's effect on the lanes, and on every other register whatever the lanes are. -/
theorem exec_lanes (i : Instr) {s : State} (ready : s.busy = false) :
    ∃ (u : State) (f : Lanes → Lanes), LanesEffect f ∧
      ∀ S ps, exec i (s.withLanes S ps) = .next (u.withLanes (f S) ps) := by
  have accepting : s.cmdReady = true := s.cmdReady_iff_not_busy.mpr ready
  by_cases dropped : s.PHASE = .err ∧ i ≠ .init
  case pos => exact ⟨s, id, .inl rfl, fun S ps => exec_of_err (s := s.withLanes S ps) dropped.1 dropped.2⟩
  case neg =>
    have phase (notInit : i ≠ .init) : s.PHASE = .abs ∨ s.PHASE = .done := by
      have := s.cmdReady_iff.mp accepting
      tauto
    cases i with
    | nop => exact ⟨s, id, .inl rfl, fun S ps => rfl⟩
    | init => exact ⟨s.clear, _, .inr (.inl rfl), fun S ps => exec_init_of_ready (s := s.withLanes S ps) accepting⟩
    | absorb len data =>
      rcases phase (by simp) with abs | done
      · obtain ⟨u, f, effect, beat⟩ := absorbBeat_lanes s len data
        exact ⟨u, f, effect,
          fun S ps => (exec_absorb_of_abs (s := s.withLanes S ps) abs len data).trans (congrArg _ (beat S ps))⟩
      · exact ⟨s.raiseError .sequence, id, .inl rfl,
          fun S ps => exec_final_or_absorb_of_done (s := s.withLanes S ps) done (.inr ⟨len, data, rfl⟩)⟩
    | final =>
      rcases phase (by simp) with abs | done
      · exact ⟨s.absorbBlock (pad s.BUF s.COUNT.toNat) .permFin, _, .inr (.inr ⟨pad s.BUF s.COUNT.toNat, rfl⟩),
          fun S ps => exec_final_of_abs (s := s.withLanes S ps) abs⟩
      · exact ⟨s.raiseError .sequence, id, .inl rfl,
          fun S ps => exec_final_or_absorb_of_done (s := s.withLanes S ps) done (.inl rfl)⟩
    | reservedLow sub =>
      exact ⟨s.raiseError .illegalOp, id, .inl rfl,
        fun S ps => exec_of_reserved (s := s.withLanes S ps) (phase (by simp)) (.inl ⟨sub, rfl⟩)⟩
    | reservedHigh sub =>
      exact ⟨s.raiseError .illegalOp, id, .inl rfl,
        fun S ps => exec_of_reserved (s := s.withLanes S ps) (phase (by simp)) (.inr ⟨sub, rfl⟩)⟩

/-- An edge of a launched core that is not permuting has such an effect too. -/
theorem step_lanes {s : State} (launched : s.launched = true) (ready : s.busy = false) :
    ∃ (u : State) (f : Lanes → Lanes), LanesEffect f ∧
      ∀ S, step (s.withLanes S s.inputs) = .next (u.withLanes (f S) s.inputs.tail) := by
  cases rst : s.portInput.rst with
  | true => exact ⟨State.reset, _, .inr (.inl rfl), fun S => step_of_rst (s := s.withLanes S s.inputs) rst⟩
  | false =>
    cases valid : s.portInput.cmdValid with
    | true =>
      obtain ⟨u, f, effect, command⟩ := exec_lanes (decode s.portInput.cmd) ready
      exact ⟨u, f, effect, fun S =>
        (step_of_command (s := s.withLanes S s.inputs) rst launched ready valid).trans (command S s.inputs.tail)⟩
    | false =>
      exact ⟨s, id, .inl rfl, fun S => step_of_hold (s := s.withLanes S s.inputs) rst launched ready valid⟩

/-- Outside rounds, INIT and reset an edge keeps the capacity. -/
theorem step_keeps_capacity {s t : State} (next : step s = .next t) (noRst : s.portInput.rst = false)
    (ready : s.busy = false) (notInit : s.transfers ≠ some .init) (i : Fin 25) (capacity : 17 ≤ i.val) :
    t.S[i] = s.S[i] := by
  rcases step_cases next with ⟨rst, -⟩ | ⟨-, -, fault⟩ | ⟨-, -, busy, -⟩ | ⟨-, launched, -, valid, command⟩ |
    ⟨-, -, -, -, hold⟩
  · simp [noRst] at rst
  · cases fault
  · simp [ready] at busy
  · rcases exec_cases command.symm with ⟨same, -⟩ | ⟨-, init, -⟩ | ⟨code, raised, -⟩ |
      ⟨len, data, -, -, -, -, filled⟩ | ⟨len, data, -, -, -, -, staged⟩ | ⟨-, -, padded⟩
    · cases same
      rfl
    · exact absurd (State.transfers_eq_some_iff.mpr ⟨noRst, launched, ready, valid, init⟩) notInit
    · cases raised
      rfl
    · cases filled
      exact absorb_getElem_capacity _ _ i capacity i.isLt
    · cases staged
      simp
    · cases padded
      exact absorb_getElem_capacity _ _ i capacity i.isLt
  · cases hold
    rfl

theorem State.withLanes_digest_congr (s : State) (ps : List PortInput) {S S' : Lanes}
    (h : ∀ i : Fin 4, S'[i.val] = S[i.val]) : (s.withLanes S' ps).digest = (s.withLanes S ps).digest := by
  have phase : (s.withLanes S' ps).PHASE = (s.withLanes S ps).PHASE := rfl
  have lanes : digestLanes (s.withLanes S' ps).S = digestLanes (s.withLanes S ps).S := digestLanes_congr h
  rw [State.digest_eq_ite, State.digest_eq_ite, phase, lanes]

/-- Settles O49: the frame is `step_keeps_capacity`; the outputs read four lanes; and at a non-busy edge both runs
have one and the same effect on the lanes. -/
theorem capacityIsIsolated : Obligations.CapacityIsIsolated := by
  refine ⟨fun s t => step_keeps_capacity, fun s S' lanes => ⟨s.withLanes_digest_congr s.inputs lanes, rfl, rfl⟩,
    fun s S' p t t' rate ready next next' => ?edge⟩
  case edge =>
    cases launched : s.launched with
    | false =>
      cases rst : p.rst with
      | false => cases next.symm.trans (step_of_unlaunched (s := s.present p) rst launched)
      | true =>
        cases next.symm.trans (step_of_rst (s := s.present p) rst)
        cases next'.symm.trans (step_of_rst (s := (s.present p).withLanes S' (s.present p).inputs) rst)
        exact ⟨rfl, rfl, fun _ => rfl⟩
    | true =>
      obtain ⟨u, f, effect, edge⟩ := step_lanes (s := s.present p) launched ready
      cases next.symm.trans (edge s.S)
      cases next'.symm.trans (edge S')
      have lanes (i : Fin 17) := (effect.rate_congr rate i).symm
      exact ⟨u.withLanes_digest_congr _ fun i => lanes ⟨i.val, by omega⟩, rfl, lanes⟩

end Sys2Proof.Machine
end

section
/-! The permutation as a run (40_permutation.md R113, R114, 41_sponge.md R153, R154): the edges of one whole
permutation, and the state a pending one leads to (`State.settled`) with the edges it still takes
(`State.roundsLeft`). -/

namespace Sys2Proof.Machine

/-! ### No reset ahead -/

/-- Edge `j` of a run without reset asserts none. -/
theorem State.noReset.portInput_rst {s : State} {k : Nat} (noReset : s.noReset k = true) {j : Nat}
    (h : j < k) {u : State} (left : u.inputs = s.inputs.drop j) : u.portInput.rst = false := by
  by_cases driven : j < s.inputs.length
  case pos =>
    rw [State.portInput_of_inputs_eq_drop driven left]
    have early : s.inputs[j] ∈ s.inputs.take k := List.mem_take_iff_getElem.mpr ⟨j, by omega, rfl⟩
    simpa using List.all_eq_true.mp noReset _ early
  case neg =>
    rw [State.portInput, left, List.drop_eq_nil_of_le (by omega)]
    rfl

/-- A run without reset has none in its first edges. -/
theorem State.noReset.of_le {s : State} {j k : Nat} (noReset : s.noReset k = true) (h : j ≤ k) : s.noReset j = true :=
  List.all_eq_true.mpr fun p early => List.all_eq_true.mp noReset p (List.take_subset_take_left _ h early)

/-- What is left of a run without reset behind its first edge. -/
theorem State.noReset.tail {s t : State} {k : Nat} (noReset : s.noReset (k + 1) = true)
    (inputs : t.inputs = s.inputs.tail) : t.noReset k = true := by
  rw [State.noReset] at noReset ⊢
  cases driven : s.inputs with
  | nil => simp [inputs, driven]
  | cons p ps =>
    rw [driven, List.take_succ_cons, List.all_cons, Bool.and_eq_true] at noReset
    rw [inputs, driven]
    exact noReset.2

/-! ### One whole permutation (R114) -/

section
variable {s : State} (launched : s.launched = true) (busy : s.busy = true) (start : s.RND = 0)
include launched busy start

/-- Behind j edges of a permutation, j at most 23, rounds 0 to j - 1 are applied and round j is next. -/
theorem run_rounds {j : Nat} (h : j < 24) (noReset : s.noReset j = true) :
    Sys2Proof.core.run j s = .next { s with
      S := ((List.finRange 24).take j).foldl round s.S, RND := ⟨j, h⟩, inputs := s.inputs.drop j } := by
  induction j with
  | zero =>
    have first : (⟨0, h⟩ : Fin 24) = s.RND := start.symm
    rw [first]
    rfl
  | succ j ih =>
    rw [run_add_of_next (ih (by omega) (State.noReset.of_le noReset (Nat.le_succ j))) 1]
    refine run_succ_of_next ?_ 0
    have noRst := State.noReset.portInput_rst noReset (Nat.lt_succ_self j) (u := { s with
      S := ((List.finRange 24).take j).foldl round s.S, RND := ⟨j, by omega⟩, inputs := s.inputs.drop j }) rfl
    have round_j : (List.finRange 24).take (j + 1) = (List.finRange 24).take j ++ [⟨j, by omega⟩] := by
      rw [List.take_succ_eq_append_getElem (by simp; omega)]
      simp
    have below : j < 23 := by omega
    have next_round : nextRound ⟨j, by omega⟩ = ⟨j + 1, h⟩ := Fin.ext (nextRound_val (r := ⟨j, by omega⟩) below)
    rw [step_of_busy noRst launched busy, State.busyStep_of_lt below, round_j, List.foldl_append]
    simp [State.takeInput, next_round]

/-- The 24th edge ends the permutation. -/
theorem run_permutation (noReset : s.noReset 24 = true) :
    Sys2Proof.core.run 24 s = .next { s with
      S := keccakF s.S, PHASE := s.PHASE.afterPermutation, inputs := s.inputs.drop 24 } := by
  have before := run_rounds launched busy start (by decide : 23 < 24) (State.noReset.of_le noReset (by decide))
  rw [run_add_of_next before 1]
  refine run_succ_of_next ?_ 0
  have noRst := State.noReset.portInput_rst noReset (by decide : 23 < 24) (u := { s with
    S := ((List.finRange 24).take 23).foldl round s.S, RND := ⟨23, by decide⟩, inputs := s.inputs.drop 23 }) rfl
  have all_rounds : (List.finRange 24) = (List.finRange 24).take 23 ++ [23] := by decide
  have whole : keccakF s.S = round (((List.finRange 24).take 23).foldl round s.S) 23 := by
    rw [keccakF]
    conv_lhs => rw [all_rounds]
    rw [List.foldl_append]
    rfl
  rw [step_of_last_round noRst launched busy rfl, whole, start]
  simp

end

/-- Settles O34: the end is `run_permutation`, the edges before it are `run_rounds`. -/
theorem permutationTakesTwentyFourEdges : Obligations.PermutationTakesTwentyFourEdges := by
  refine fun s launched start noReset => ⟨fun phase => ?blk, fun phase => ?fin, fun busy j => ?before⟩
  case blk =>
    rw [run_permutation launched (s.busy_iff.mpr (.inl phase)) start noReset, phase]
    rfl
  case fin =>
    rw [run_permutation launched (s.busy_iff.mpr (.inr phase)) start noReset, phase]
    rfl
  case before =>
    have early : s.noReset j = true := State.noReset.of_le noReset j.isLt.le
    refine ⟨_, run_rounds launched busy start j.isLt early, ?notReady, rfl, rfl, rfl⟩
    case notReady => exact congrArg (! ·) busy

/-! ### The state a pending permutation leads to (R113, R154) -/

/-- The registers once the pending permutation, if there is one, has ended, with nothing driven on the ports. -/
def State.settled (s : State) : State :=
  if s.busy then
    { s with S := roundsFrom s.RND.val s.S, RND := 0, PHASE := s.PHASE.afterPermutation, inputs := [] }
  else { s with inputs := [] }

/-- The busy edges the pending permutation still takes. -/
def State.roundsLeft (s : State) : Nat := if s.busy then 24 - s.RND.val else 0

theorem State.settled_of_ready {s : State} (ready : s.busy = false) : s.settled = { s with inputs := [] } := by
  simp [State.settled, ready]

theorem State.settled_of_busy {s : State} (busy : s.busy = true) : s.settled = { s with
    S := roundsFrom s.RND.val s.S, RND := 0, PHASE := s.PHASE.afterPermutation, inputs := [] } := by
  simp [State.settled, busy]

@[simp] theorem State.roundsLeft_of_ready {s : State} (ready : s.busy = false) : s.roundsLeft = 0 := by
  simp [State.roundsLeft, ready]

theorem State.roundsLeft_of_busy {s : State} (busy : s.busy = true) : s.roundsLeft = 24 - s.RND.val := by
  simp [State.roundsLeft, busy]

@[simp] theorem State.settled_busy (s : State) : s.settled.busy = false := by
  cases busy : s.busy with
  | true => rw [State.settled_of_busy busy]; exact s.PHASE.afterPermutation_not_busy
  | false => rw [State.settled_of_ready busy]; exact busy

@[simp] theorem State.settled_inputs (s : State) : s.settled.inputs = [] := by
  unfold State.settled
  split <;> rfl

@[simp] theorem State.settled_BUF (s : State) : s.settled.BUF = s.BUF := by
  unfold State.settled
  split <;> rfl

@[simp] theorem State.settled_COUNT (s : State) : s.settled.COUNT = s.COUNT := by
  unfold State.settled
  split <;> rfl

@[simp] theorem State.settled_ERRC (s : State) : s.settled.ERRC = s.ERRC := by
  unfold State.settled
  split <;> rfl

@[simp] theorem State.settled_launched (s : State) : s.settled.launched = s.launched := by
  unfold State.settled
  split <;> rfl

/-- A ready core with nothing driven on its ports is settled. -/
theorem State.settled_eq_self {s : State} (ready : s.busy = false) (inputs : s.inputs = []) : s.settled = s := by
  rw [State.settled_of_ready ready, ← inputs]

@[simp] theorem State.settled_settled (s : State) : s.settled.settled = s.settled :=
  State.settled_eq_self s.settled_busy s.settled_inputs

/-- The state with other port values to come. -/
def State.withInputs (s : State) (ps : List PortInput) : State := { s with inputs := ps }

/-- The ports have no part in the settled state. -/
theorem State.settled_withInputs (s : State) (ps : List PortInput) : (s.withInputs ps).settled = s.settled := rfl

theorem State.roundsLeft_withInputs (s : State) (ps : List PortInput) :
    (s.withInputs ps).roundsLeft = s.roundsLeft := rfl

/-- The last round of a permutation is all that round 23 leaves to do. -/
theorem State.settled_busyStep {s : State} (busy : s.busy = true) : s.busyStep.settled = s.settled := by
  rw [State.settled_of_busy busy, roundsFrom_eq_round]
  by_cases below : s.RND.val < 23
  case pos =>
    have still : s.busyStep.busy = true := by rw [State.busyStep_of_lt below]; exact busy
    rw [State.settled_of_busy still, State.busyStep_of_lt below, nextRound_val below]
  case neg =>
    have last : s.RND.val = 23 := by omega
    have ended : s.busyStep.busy = false := by
      rw [State.busyStep_of_last last]
      exact s.PHASE.afterPermutation_not_busy
    have index : s.RND = 23 := Fin.ext last
    rw [State.settled_of_ready ended, State.busyStep_of_last last, last, roundsFrom_end, index]

/-- A busy edge is one of the edges left. -/
theorem State.roundsLeft_busyStep {s : State} (busy : s.busy = true) : s.busyStep.roundsLeft + 1 = s.roundsLeft := by
  rw [State.roundsLeft_of_busy busy]
  by_cases below : s.RND.val < 23
  case pos =>
    have still : s.busyStep.busy = true := by rw [State.busyStep_of_lt below]; exact busy
    rw [State.roundsLeft_of_busy still, State.busyStep_RND, nextRound_val below]
    omega
  case neg =>
    have last : s.RND.val = 23 := by omega
    have ended : s.busyStep.busy = false := by
      rw [State.busyStep_of_last last]
      exact s.PHASE.afterPermutation_not_busy
    rw [State.roundsLeft_of_ready ended, last]

/-! ### What a command and an edge do to the settled state -/

/-- The settled state behind a command. -/
def State.after (s : State) (i : Instr) : State :=
  match exec i s with
  | .next t => t.settled
  | .fault _ => s
  | .refused _ => s

/-- The busy edges a command causes. -/
def State.roundsCaused (s : State) (i : Instr) : Nat :=
  match exec i s with
  | .next t => t.roundsLeft
  | .fault _ => 0
  | .refused _ => 0

/-- The busy edges that commands cause one after the other, each at the settled state behind those before it. -/
def roundsCausedBy : State → List Instr → Nat
  | _, [] => 0
  | s, i :: is => s.roundsCaused i + roundsCausedBy (s.after i) is

theorem State.after_of_exec {s t : State} {i : Instr} (next : exec i s = .next t) : s.after i = t.settled := by
  simp [State.after, next]

theorem State.roundsCaused_of_exec {s t : State} {i : Instr} (next : exec i s = .next t) :
    s.roundsCaused i = t.roundsLeft := by
  simp [State.roundsCaused, next]

@[simp] theorem State.settled_of_after (s : State) (i : Instr) : (s.after i).settled = s.after i := by
  obtain ⟨t, next, -⟩ := exec_next i s
  rw [State.after_of_exec next, State.settled_settled]

/-- A ready core runs a command as its settled state does: the ports have no part in it. -/
theorem exec_settled {s t : State} {i : Instr} (ready : s.busy = false) (next : exec i s = .next t) :
    exec i s.settled = .next (t.withInputs []) := by
  obtain ⟨u, f, -, command⟩ := exec_lanes i ready
  cases next.symm.trans (command s.S s.inputs)
  rw [State.settled_of_ready ready]
  exact command s.S []

theorem State.settled_after {s t : State} {i : Instr} (ready : s.busy = false) (next : exec i s = .next t) :
    s.settled.after i = t.settled :=
  (State.after_of_exec (exec_settled ready next)).trans (t.settled_withInputs [])

theorem State.settled_roundsCaused {s t : State} {i : Instr} (ready : s.busy = false) (next : exec i s = .next t) :
    s.settled.roundsCaused i = t.roundsLeft :=
  (State.roundsCaused_of_exec (exec_settled ready next)).trans (t.roundsLeft_withInputs [])

theorem State.edgeAction_eq_busy_iff {s : State} : s.edgeAction = .busy ↔
    s.portInput.rst = false ∧ s.launched = true ∧ s.busy = true := by
  unfold State.edgeAction
  split_ifs <;> simp_all

/-- An edge without reset is a busy edge, which settles nothing new, or the commands it transfers. -/
theorem step_settled {s t : State} (launched : s.launched = true) (noRst : s.portInput.rst = false)
    (next : step s = .next t) :
    t.settled = s.transfers.toList.foldl State.after s.settled ∧
    (if s.edgeAction = .busy then 1 else 0) + t.roundsLeft =
      s.roundsLeft + roundsCausedBy s.settled s.transfers.toList := by
  have action := s.edgeAction_eq_busy_iff
  cases busy : s.busy with
  | true =>
    cases next.symm.trans (step_of_busy noRst launched busy)
    have taken : s.takeInput.busy = true := busy
    have rounds := State.roundsLeft_busyStep taken
    rw [State.transfers_of_busy busy, if_pos (action.mpr ⟨noRst, launched, busy⟩)]
    exact ⟨State.settled_busyStep taken, by rw [Nat.add_comm]; exact rounds⟩
  | false =>
    rw [if_neg fun isBusy => by simp [action.mp isBusy] at busy]
    cases transfer : s.transfers with
    | none =>
      cases next.symm.trans (step_of_no_transfer_or_nop noRst launched busy (.inl transfer))
      exact ⟨rfl, Nat.zero_add _⟩
    | some i =>
      have command : exec i s.takeInput = .next t := (step_of_transfers transfer).symm.trans next
      have taken : s.takeInput.busy = false := busy
      refine ⟨(State.settled_after taken command).symm, ?_⟩
      rw [State.roundsLeft_of_ready busy, ← State.settled_roundsCaused taken command]
      rfl

/-! ### Runs without reset -/

theorem roundsCausedBy_append (s : State) (is js : List Instr) :
    roundsCausedBy s (is ++ js) = roundsCausedBy s is + roundsCausedBy (is.foldl State.after s) js := by
  induction is generalizing s with
  | nil => simp [roundsCausedBy]
  | cons i is ih => simp [roundsCausedBy, ih, Nat.add_assoc]

/-- Behind a run without reset the settled state is that of the commands it transferred, in order, and its busy edges
are those it found pending and those its commands caused, but for those still left. -/
theorem run_settled {s t : State} {k : Nat} (launched : s.launched = true) (noReset : s.noReset k = true)
    (run : Sys2Proof.core.run k s = .next t) :
    t.settled = (transferred k s).foldl State.after s.settled ∧
    busyEdges k s + t.roundsLeft = s.roundsLeft + roundsCausedBy s.settled (transferred k s) := by
  induction k generalizing s with
  | zero =>
    cases run
    exact ⟨rfl, Nat.add_comm _ _⟩
  | succ k ih =>
    obtain ⟨u, next, launched', inputs⟩ := step_of_launched launched
    have noRst := State.noReset.portInput_rst noReset (Nat.succ_pos k) (u := s) rfl
    obtain ⟨settled, rounds⟩ := step_settled launched noRst next
    obtain ⟨settled', rounds'⟩ := ih launched' (State.noReset.tail noReset inputs)
      ((run_succ_of_next next k).symm.trans run)
    rw [transferred_succ_of_next next, busyEdges_succ_of_next next, List.foldl_append, roundsCausedBy_append,
      ← settled]
    exact ⟨settled', by omega⟩

end Sys2Proof.Machine
end

section
/-! The message a core holds (41_sponge.md R151, R155): blocks and tail of a message that grows by a beat, and what a
beat and FINAL make of the held message. -/

namespace Sys2Proof.Machine

/-! ### Blocks and tail of a longer message (R155) -/

theorem messageTail_length (M : List Byte) : (messageTail M).length = M.length % 136 := by
  rw [messageTail, List.length_drop, Config.rateBytes_eq]
  omega

@[simp] theorem beatBytes_length (len : BitVec 4) (data : BitVec 64) : (beatBytes len data).length = len.toNat := by
  simp [beatBytes]

/-- A full block of a message is that of every longer one. -/
theorem messageBlock_append {M : List Byte} (B : List Byte) {b : Nat} (full : 136 * (b + 1) ≤ M.length) :
    messageBlock (M ++ B) b = messageBlock M b := by
  refine Vector.ext fun k hk => ?_
  have inside : 136 * b + k < M.length := by omega
  simp [messageBlock, blockOf_getElem, List.getElem?_append_left inside]

/-- The state behind the full blocks of a message, from those of a part of it. -/
theorem foldl_messageBlock_append {M : List Byte} (B : List Byte) {n : Nat} (full : 136 * n ≤ M.length) :
    (List.range n).foldl (fun S b => keccakF (absorb S (messageBlock (M ++ B) b))) zeroLanes =
      (List.range n).foldl (fun S b => keccakF (absorb S (messageBlock M b))) zeroLanes := by
  refine List.foldl_ext _ _ _ fun S b hb => ?_
  have complete : b < n := List.mem_range.mp hb
  rw [messageBlock_append B (by omega)]

theorem drop_full_blocks_append (M B : List Byte) :
    (M ++ B).drop (136 * (M.length / 136)) = messageTail M ++ B :=
  List.drop_append_of_le_length (Nat.mul_div_le _ _)

section
variable {M B : List Byte}

/-- Bytes that leave the block unfilled go to the tail. -/
theorem absorbFullBlocks_append_of_lt (room : M.length % 136 + B.length < 136) :
    absorbFullBlocks (M ++ B) = absorbFullBlocks M := by
  have same_blocks : (M ++ B).length / 136 = M.length / 136 := by
    rw [List.length_append]
    omega
  simp only [absorbFullBlocks, Config.rateBytes_eq, same_blocks]
  exact foldl_messageBlock_append B (Nat.mul_div_le _ _)

theorem messageTail_append_of_lt (room : M.length % 136 + B.length < 136) :
    messageTail (M ++ B) = messageTail M ++ B := by
  have same_blocks : (M ++ B).length / 136 = M.length / 136 := by
    rw [List.length_append]
    omega
  rw [messageTail, Config.rateBytes_eq, same_blocks, drop_full_blocks_append]

/-- Bytes that fill the block complete one more, and leave no tail. -/
theorem absorbFullBlocks_append_of_eq (fills : M.length % 136 + B.length = 136) :
    absorbFullBlocks (M ++ B) = keccakF (absorb (absorbFullBlocks M) (blockOf (messageTail M ++ B))) := by
  have one_more : (M ++ B).length / 136 = M.length / 136 + 1 := by
    rw [List.length_append]
    omega
  simp only [absorbFullBlocks, Config.rateBytes_eq, one_more, List.range_succ, List.foldl_append, List.foldl_cons,
    List.foldl_nil, foldl_messageBlock_append B (Nat.mul_div_le M.length 136)]
  rw [messageBlock, Config.rateBytes_eq, drop_full_blocks_append]

theorem messageTail_append_of_eq (fills : M.length % 136 + B.length = 136) : messageTail (M ++ B) = [] := by
  refine List.length_eq_zero_iff.mp ?_
  rw [messageTail_length, List.length_append]
  omega

end

/-- A beat written at the end of the tail is the block of the longer tail. -/
theorem writeBeat_blockOf (T : List Byte) (len : BitVec 4) (data : BitVec 64) :
    writeBeat (blockOf T) T.length len data = blockOf (T ++ beatBytes len data) := by
  refine Vector.ext fun k hk => ?_
  rw [writeBeat_getElem, blockOf_getElem, blockOf_getElem, List.getD_eq_getElem?_getD, List.getD_eq_getElem?_getD]
  by_cases before : k < T.length
  case pos =>
    have outside : ¬(T.length ≤ k ∧ k < T.length + len.toNat) := by omega
    rw [if_neg outside, List.getElem?_append_left before]
  case neg =>
    rw [List.getElem?_append_right (by omega)]
    by_cases within : k < T.length + len.toNat
    case pos =>
      have inBeat : T.length ≤ k ∧ k - T.length < len.toNat := by omega
      simp [inBeat.1, inBeat.2, within, beatBytes]
    case neg =>
      have behind : len.toNat ≤ k - T.length ∧ T.length ≤ k := by omega
      simp [within, behind.1, behind.2, beatBytes]

theorem blockOf_nil : blockOf [] = zeroBlock := by
  refine Vector.ext fun k hk => ?_
  simp [blockOf_getElem]

/-! ### Commands on the held message (R151) -/

/-- A cleared core holds the empty message. -/
theorem State.clear_holds_nil (s : State) : s.clear.Holds [] :=
  ⟨rfl, rfl, rfl, rfl, rfl, blockOf_nil.symm⟩

theorem legalBeat_iff (count : Nat) (len : BitVec 4) :
    legalBeat count len = true ↔ legalLen len = true ∧ count + len.toNat ≤ 136 := by
  simp [legalBeat]

section
variable {s : State} {M : List Byte} (held : s.Holds M)
include held

/-- The buffer with the beat in it is the block of the longer tail. -/
theorem State.Holds.writeBeat (len : BitVec 4) (data : BitVec 64) :
    writeBeat s.BUF s.COUNT.toNat len data = blockOf (messageTail M ++ beatBytes len data) := by
  have fill : s.COUNT.toNat = (messageTail M).length := held.count.trans (messageTail_length M).symm
  rw [held.tail, fill, writeBeat_blockOf]

theorem State.Holds.stage {len : BitVec 4} (data : BitVec 64) (room : s.COUNT.toNat + len.toNat < 136) :
    (s.stage (Machine.writeBeat s.BUF s.COUNT.toNat len data) (s.COUNT + len.setWidth 8)).Holds
      (M ++ beatBytes len data) := by
  have count : s.COUNT.toNat = M.length % 136 := held.count
  have room' : M.length % 136 + (beatBytes len data).length < 136 := by rw [beatBytes_length, ← count]; exact room
  refine ⟨(s.stage_PHASE _ _).trans held.phase, (s.stage_RND _ _).trans held.rnd, (s.stage_ERRC _ _).trans held.noError,
    ?count, ?lanes, ?tail⟩
  case count =>
    rw [State.stage_COUNT, count_add_len_toNat room, List.length_append, Config.rateBytes_eq, beatBytes_length]
    omega
  case lanes => rw [State.stage_S, held.lanes, absorbFullBlocks_append_of_lt room']
  case tail => rw [State.stage_BUF, held.writeBeat, messageTail_append_of_lt room']

/-- Once the permutation of a filled block has ended, the longer message is held. -/
theorem State.Holds.fill {len : BitVec 4} (data : BitVec 64) (fills : s.COUNT.toNat + len.toNat = 136) :
    ({ s.absorbBlock (Machine.writeBeat s.BUF s.COUNT.toNat len data) .permBlk with
      S := keccakF (absorb s.S (Machine.writeBeat s.BUF s.COUNT.toNat len data)), PHASE := .abs } : State).Holds
      (M ++ beatBytes len data) := by
  have count : s.COUNT.toNat = M.length % 136 := held.count
  have fills' : M.length % 136 + (beatBytes len data).length = 136 := by rw [beatBytes_length, ← count]; exact fills
  refine ⟨rfl, rfl, held.noError, ?count, ?lanes, ?tail⟩
  case count =>
    rw [List.length_append, Config.rateBytes_eq]
    exact (by omega : 0 = (M.length + (beatBytes len data).length) % 136)
  case lanes => rw [absorbFullBlocks_append_of_eq fills', held.lanes, held.writeBeat]
  case tail => rw [messageTail_append_of_eq fills', blockOf_nil]; rfl

/-- FINAL absorbs the last block of the reference sponge. -/
theorem State.Holds.pad : keccakF (absorb s.S (pad s.BUF s.COUNT.toNat)) = spongeState M := by
  have fill : s.COUNT.toNat = (messageTail M).length := held.count.trans (messageTail_length M).symm
  rw [spongeState, held.lanes, held.tail, fill]

end

/-- Settles O51: INIT clears, a beat is staged or fills the block, FINAL pads it. -/
theorem legalBeatExtendsTheHeldMessage : Obligations.LegalBeatExtendsTheHeldMessage := by
  refine ⟨fun s accepting => ?init, fun s M len data held legal => ?beat, fun s M held => ?final⟩
  case init => exact ⟨s.clear, exec_init_of_ready (s.cmdReady_iff.mpr accepting), s.clear_holds_nil⟩
  case beat =>
    obtain ⟨legalLen, fits⟩ := (legalBeat_iff _ _).mp legal
    refine ⟨_, exec_absorb_of_abs held.phase len data, fun room => ?stages, fun fills => ?fills⟩
    case stages =>
      rw [absorbBeat_of_staging legalLen room]
      exact held.stage data room
    case fills =>
      rw [absorbBeat_of_filling legalLen fills]
      exact ⟨rfl, held.fill data fills⟩
  case final => exact ⟨_, exec_final_of_abs held.phase, rfl, rfl, held.pad⟩

end Sys2Proof.Machine
end

section
/-! What the controller computes (41_sponge.md R156, R157): the commands of a message, one after the other on the
settled state, end in DONE with the reference sponge's state (`settled_of_messageOf`); a run is its commands by
`run_settled`. -/

namespace Sys2Proof.Machine

/-! ### One command on a settled state that holds a message -/

section
variable {s : State} {M : List Byte} (held : s.Holds M)
include held

theorem State.Holds.ready : s.busy = false :=
  s.cmdReady_iff_not_busy.mp (s.cmdReady_iff.mpr (.inl held.phase))

/-- The ports have no part in what is held. -/
theorem State.Holds.settled : s.settled.Holds M := by
  rw [State.settled_of_ready held.ready]
  exact ⟨held.phase, held.rnd, held.noError, held.count, held.lanes, held.tail⟩

/-- A legal beat extends the message, and causes a permutation when it fills the block. -/
theorem State.Holds.after_beat {len : BitVec 4} (legal : legalBeat s.COUNT.toNat len = true) (data : BitVec 64) :
    (s.after (.absorb len data)).Holds (M ++ beatBytes len data) ∧
      s.roundsCaused (.absorb len data) = 24 * ((s.COUNT.toNat + len.toNat) / 136) := by
  obtain ⟨legalLen, fits⟩ := (legalBeat_iff _ _).mp legal
  have command := exec_absorb_of_abs held.phase len data
  rcases Nat.lt_or_eq_of_le fits with room | fills
  · have longer := held.stage data room
    rw [absorbBeat_of_staging legalLen room] at command
    rw [State.after_of_exec command, State.roundsCaused_of_exec command, Nat.div_eq_of_lt room]
    exact ⟨longer.settled, State.roundsLeft_of_ready longer.ready⟩
  · have longer := held.fill data fills
    rw [absorbBeat_of_filling legalLen fills] at command
    rw [State.after_of_exec command, State.roundsCaused_of_exec command, State.settled_of_busy rfl, fills]
    exact ⟨⟨longer.phase, longer.rnd, longer.noError, longer.count, longer.lanes, longer.tail⟩, rfl⟩

theorem State.Holds.after_final :
    (s.after .final).PHASE = .done ∧ (s.after .final).S = spongeState M ∧ s.roundsCaused .final = 24 := by
  have command := exec_final_of_abs held.phase
  rw [State.after_of_exec command, State.roundsCaused_of_exec command, State.settled_of_busy rfl]
  exact ⟨rfl, held.pad, rfl⟩

end

theorem State.after_nop {s : State} (settled : s.settled = s) : s.after .nop = s ∧ s.roundsCaused .nop = 0 := by
  have ready : s.busy = false := settled ▸ s.settled_busy
  exact ⟨(State.after_of_exec rfl).trans settled,
    (State.roundsCaused_of_exec rfl).trans (State.roundsLeft_of_ready ready)⟩

theorem foldl_after_nops {s : State} (settled : s.settled = s) {is : List Instr} (nops : ∀ i ∈ is, i = .nop) :
    is.foldl State.after s = s ∧ roundsCausedBy s is = 0 := by
  induction is with
  | nil => exact ⟨rfl, rfl⟩
  | cons i is ih =>
    obtain ⟨rfl, rest⟩ := List.forall_mem_cons.mp nops
    obtain ⟨same, noRounds⟩ := State.after_nop settled
    rw [List.foldl_cons, roundsCausedBy, same, noRounds, Nat.zero_add]
    exact ih rest

/-! ### A whole message (R156, R157) -/

theorem messageOf_absorb {count : Nat} {len : BitVec 4} {data : BitVec 64} {is : List Instr} {N : List Byte}
    (message : messageOf count (.absorb len data :: is) = some N) :
    legalBeat count len = true ∧
      ∃ N', messageOf ((count + len.toNat) % 136) is = some N' ∧ N = beatBytes len data ++ N' := by
  rw [messageOf] at message
  split at message
  next legal =>
    obtain ⟨N', rest, rfl⟩ := Option.map_eq_some_iff.mp message
    exact ⟨legal, N', rest, rfl⟩
  next => simp at message

theorem messageOf_final {count : Nat} {is : List Instr} {N : List Byte}
    (message : messageOf count (.final :: is) = some N) : N = [] ∧ ∀ i ∈ is, i = .nop := by
  rw [messageOf] at message
  split at message
  next nops =>
    refine ⟨(Option.some.inj message).symm, fun i hi => ?_⟩
    simpa using List.all_eq_true.mp nops i hi
  next => simp at message

/-- From a settled state that holds M, the commands of a message N lead to DONE with the reference sponge's state for
M followed by N, and cause one permutation per block and one more. -/
theorem settled_of_messageOf {is : List Instr} {s : State} {M N : List Byte} (held : s.Holds M)
    (settled : s.settled = s) (message : messageOf s.COUNT.toNat is = some N) :
    (is.foldl State.after s).PHASE = .done ∧ (is.foldl State.after s).S = spongeState (M ++ N) ∧
      roundsCausedBy s is = 24 * ((s.COUNT.toNat + N.length) / 136 + 1) := by
  induction is generalizing s M N with
  | nil => simp [messageOf] at message
  | cons i is ih =>
    rw [List.foldl_cons, roundsCausedBy]
    cases i with
    | nop =>
      obtain ⟨same, noRounds⟩ := State.after_nop settled
      rw [same, noRounds, Nat.zero_add]
      exact ih held settled message
    | absorb len data =>
      obtain ⟨legal, N', rest, rfl⟩ := messageOf_absorb message
      obtain ⟨held', rounds⟩ := held.after_beat legal data
      obtain ⟨-, fits⟩ := (legalBeat_iff _ _).mp legal
      have count : s.COUNT.toNat = M.length % 136 := held.count
      have count' : (s.after (.absorb len data)).COUNT.toNat = (s.COUNT.toNat + len.toNat) % 136 := by
        rw [held'.count, List.length_append, beatBytes_length, count, Config.rateBytes_eq]
        omega
      obtain ⟨phase, lanes, rounds'⟩ := ih held' (State.settled_of_after s _) (count' ▸ rest)
      refine ⟨phase, by rw [lanes, List.append_assoc], ?_⟩
      rw [rounds, rounds', count', List.length_append, beatBytes_length]
      omega
    | final =>
      obtain ⟨rfl, nops⟩ := messageOf_final message
      obtain ⟨phase, lanes, rounds⟩ := held.after_final
      obtain ⟨same, noRounds⟩ := foldl_after_nops (State.settled_of_after s .final) nops
      have below : s.COUNT.toNat < 136 := by
        rw [held.count, Config.rateBytes_eq]
        omega
      rw [same, noRounds, rounds, List.append_nil]
      exact ⟨phase, lanes, by simp [Nat.div_eq_of_lt below]⟩
    | init => simp [messageOf] at message
    | reservedLow sub => simp [messageOf] at message
    | reservedHigh sub => simp [messageOf] at message

/-! ### A run that transfers a message -/

theorem State.settled_of_cleared {s : State} (cleared : s.clear = s) :
    s.settled.Holds [] ∧ s.settled.COUNT.toNat = 0 ∧ s.busy = false := by
  have held : s.Holds [] := cleared ▸ s.clear_holds_nil
  exact ⟨held.settled, held.settled.count, held.ready⟩

/-- The bytes of Keccak256 are those of the digest lanes of the reference sponge's state. -/
theorem digest_of_spongeState {s : State} {M : List Byte} (done : s.PHASE = .done) (lanes : s.S = spongeState M)
    (i : Fin 32) : s.digest.extractLsb' (8 * i.val) 8 = (keccak256 M)[i] := by
  rw [s.digest_of_done done, digestLanes_byte s.S i i.isLt, lanes]
  simp [keccak256]

/-- A run from cleared registers that transfers a message: the state it settles in, and its busy edges. -/
theorem run_message {s t : State} {k : Nat} {M : List Byte} (launched : s.launched = true) (cleared : s.clear = s)
    (noReset : s.noReset k = true) (message : messageOf 0 (transferred k s) = some M)
    (run : Sys2Proof.core.run k s = .next t) :
    t.settled.PHASE = .done ∧ t.settled.S = spongeState M ∧
      busyEdges k s + t.roundsLeft = 24 * (M.length / 136 + 1) := by
  obtain ⟨settled, rounds⟩ := run_settled launched noReset run
  obtain ⟨held, count, ready⟩ := State.settled_of_cleared cleared
  obtain ⟨phase, lanes, rounds'⟩ := settled_of_messageOf held s.settled_settled (count.symm ▸ message)
  rw [settled, rounds, rounds', State.roundsLeft_of_ready ready, count, Nat.zero_add, Nat.zero_add]
  exact ⟨phase, lanes, rfl⟩

/-- Settles O52: a ready core is its settled state but for the ports, and that is the one `run_message` gives. -/
theorem controllerComputesKeccak256 : Obligations.ControllerComputesKeccak256 := by
  intro s k M launched cleared noReset message
  obtain ⟨t, run, -⟩ := launchedCoreNeverStops s launched k
  refine ⟨t, run, fun ready => ?_⟩
  obtain ⟨phase, lanes, -⟩ := run_message launched cleared noReset message run
  rw [State.settled_of_ready (t.cmdReady_iff_not_busy.mp ready)] at phase lanes
  exact ⟨phase, digest_of_spongeState phase lanes⟩

/-- Settles O53: a ready core has no busy edge left. -/
theorem messageRunsOnePermutationPerBlockAndOneMore : Obligations.MessageRunsOnePermutationPerBlockAndOneMore := by
  intro s t k M launched cleared noReset message run ready
  obtain ⟨-, -, rounds⟩ := run_message launched cleared noReset message run
  rwa [State.roundsLeft_of_ready (t.cmdReady_iff_not_busy.mp ready), Nat.add_zero] at rounds

end Sys2Proof.Machine
end

section
/-! No value depends on timing (70_reset_and_hazards.md R211): behind any run the settled state is a function of the
events alone. -/

namespace Sys2Proof.Machine

/-- The settled state behind an event. -/
def State.afterEvent (s : State) : Event → State
  | .reset => State.reset
  | .command i => s.after i

theorem State.edgeAction_ne_reset {s : State} (noRst : s.portInput.rst = false) : s.edgeAction ≠ .reset := by
  rw [State.edgeAction, if_neg (by simp [noRst])]
  split_ifs <;> simp

/-- An edge is its event, or nothing to the settled state. -/
theorem step_event {s t : State} (launched : s.launched = true) (next : step s = .next t) :
    t.settled = s.event.toList.foldl State.afterEvent s.settled := by
  cases rst : s.portInput.rst with
  | true =>
    have event : s.event = some .reset := by simp [State.event, State.edgeAction, rst]
    cases next.symm.trans (step_of_rst rst)
    rw [event]
    rfl
  | false =>
    rw [(step_settled launched rst next).1]
    cases action : s.edgeAction with
    | reset => exact absurd action (State.edgeAction_ne_reset rst)
    | command w =>
      by_cases nop : decode w = .nop
      case pos => simp [State.event, State.transfers, action, nop, (State.after_nop s.settled_settled).1]
      case neg => simp [State.event, State.transfers, action, nop, State.afterEvent]
    | unspecified => simp [State.event, State.transfers, action]
    | busy => simp [State.event, State.transfers, action]
    | hold => simp [State.event, State.transfers, action]

theorem run_events {s t : State} {k : Nat} (launched : s.launched = true) (run : Sys2Proof.core.run k s = .next t) :
    t.settled = (events k s).foldl State.afterEvent s.settled := by
  induction k generalizing s with
  | zero =>
    cases run
    rfl
  | succ k ih =>
    obtain ⟨u, next, launched', -⟩ := step_of_launched launched
    rw [events_succ_of_next next, List.foldl_append, ← step_event launched next]
    exact ih launched' ((run_succ_of_next next k).symm.trans run)

/-- Settles O54: both runs settle in one state; BUF, COUNT and ERRC are read from it at any time, S and PHASE once the
core is ready. -/
theorem noValueDependsOnTiming : Obligations.NoValueDependsOnTiming := by
  intro s s' k k' launched sameRegisters sameEvents
  have launched' : s'.launched = true := (congrArg State.launched sameRegisters).trans launched
  obtain ⟨t, run, -⟩ := launchedCoreNeverStops s launched k
  obtain ⟨t', run', -⟩ := launchedCoreNeverStops s' launched' k'
  have start : s'.settled = s.settled :=
    (s'.settled_withInputs s.inputs).symm.trans (congrArg State.settled sameRegisters)
  have same : t.settled = t'.settled := by
    rw [run_events launched run, run_events launched' run', sameEvents, start]
  refine ⟨t, t', run, run', ?buf, ?count, ?errc, fun ready ready' => ?ready⟩
  case buf => rw [← t.settled_BUF, same, t'.settled_BUF]
  case count => rw [← t.settled_COUNT, same, t'.settled_COUNT]
  case errc => rw [← t.settled_ERRC, same, t'.settled_ERRC]
  case ready =>
    rw [State.settled_of_ready (t.cmdReady_iff_not_busy.mp ready),
      State.settled_of_ready (t'.cmdReady_iff_not_busy.mp ready')] at same
    exact ⟨(congrArg State.S same :), (congrArg State.PHASE same :), (congrArg State.status same :),
      (congrArg State.digest same :)⟩

end Sys2Proof.Machine
end

section
/-! The assembler (30_encoding.md R77 to R80): the word of an ABSORB line, and the expansion of ABSORB_MSG by the
length of its next beat (`beatLength`). -/

namespace Sys2Proof.Machine

/-! ### An ABSORB line (R77) -/

theorem packFields_toNat (op len : BitVec 4) (data : BitVec 64) :
    (packFields op len data).toNat = op.toNat * 2 ^ 68 + len.toNat * 2 ^ 64 + data.toNat := by
  rw [packFields, toNat_append_eq_add, toNat_append_eq_add]
  ring

/-- Settles O8: the first check that fails refuses the line, and the word is packed from its fields. -/
theorem assemblerRefusesIllegalBeats : Obligations.AssemblerRefusesIllegalBeats := by
  refine fun c len data => ⟨fun illegal => ?badLen, fun one_le le_eight wide => ?wide,
    fun one_le le_eight fits => ?word⟩
  case badLen => simp only [assembleLine, Config.beatMax_eq, illegal, not_false_eq_true, if_true]
  case wide =>
    simp only [assembleLine, Config.beatMax_eq, one_le, le_eight, wide, and_self, not_true, if_false, if_true]
  case word =>
    have narrow : ¬ 2 ^ (8 * len) ≤ data := by omega
    refine ⟨encode (.absorb (BitVec.ofNat 4 len) (BitVec.ofNat 64 data)), ?line, ?value⟩
    case line =>
      simp only [assembleLine, Config.beatMax_eq, one_le, le_eight, narrow, and_self, not_true, if_false]
      rfl
    case value =>
      have inField : 2 ^ (8 * len) ≤ 2 ^ 64 := Nat.pow_le_pow_right (by decide) (by omega)
      have data_value : data % 2 ^ 64 = data := Nat.mod_eq_of_lt (fits.trans_le inField)
      have len_value : len % 2 ^ 4 = len := Nat.mod_eq_of_lt (by omega)
      rw [encode, packFields_toNat, BitVec.toNat_ofNat len, BitVec.toNat_ofNat data, data_value, len_value]
      rfl

/-! ### One beat of ABSORB_MSG (R79) -/

theorem le64_getLsbD (bs : Vector Byte 8) {i : Nat} (h : i < 64) :
    (le64 bs).getLsbD i = bs[i / 8].getLsbD (i % 8) := by
  rw [← le64_extractLsb' bs (i / 8) (by omega), BitVec.getLsbD_extractLsb', Nat.div_add_mod]
  simp [Nat.mod_lt]

section
variable {bs : List Byte} (short : bs.length ≤ 8)
include short

theorem ofNat_length_toNat : (BitVec.ofNat 4 bs.length).toNat = bs.length := by
  rw [BitVec.toNat_ofNat]
  omega

/-- A beat carries its bytes. -/
theorem beatBytes_beatOf :
    beatBytes (BitVec.ofNat 4 bs.length) (le64 (Vector.ofFn fun j => bs.getD j.val 0#8)) = bs := by
  refine List.ext_getElem (by rw [beatBytes_length, ofNat_length_toNat short]) fun k hk hk' => ?_
  simp [beatBytes, beatByte, le64_extractLsb' _ k (by omega), hk']

/-- Behind its bytes a beat is padded with zeros. -/
theorem beatOf_wellFormed : (beatOf bs).wellFormed = true := by
  refine (dataFits_iff _ _).mpr fun i above => ?_
  rw [ofNat_length_toNat short] at above
  by_cases inLane : i < 64
  case pos =>
    have behind : bs.length ≤ i / 8 := by omega
    rw [le64_getLsbD _ inLane]
    simp [List.getElem?_eq_none behind]
  case neg => exact BitVec.getLsbD_of_ge _ i (by omega)

end

/-- The bytes the next beat takes: at most 8, no more than there are, and none across the block boundary. -/
def beatLength (c : Nat) (bs : List Byte) : Nat := min Config.beatMax (min bs.length (Config.rateBytes - c))

theorem expandBeats_nil (fuel c : Nat) : expandBeats fuel c [] = [] := by
  cases fuel <;> rfl

theorem expandBeats_succ {bs : List Byte} (more : bs ≠ []) (fuel c : Nat) :
    expandBeats (fuel + 1) c bs = beatOf (bs.take (beatLength c bs)) ::
      expandBeats fuel ((c + beatLength c bs) % 136) (bs.drop (beatLength c bs)) := by
  cases bs with
  | nil => exact absurd rfl more
  | cons b bs => rfl

theorem beatLength_bounds {c : Nat} (h : c < 136) {bs : List Byte} (more : bs ≠ []) :
    1 ≤ beatLength c bs ∧ beatLength c bs ≤ 8 ∧ beatLength c bs ≤ bs.length ∧ c + beatLength c bs ≤ 136 := by
  have positive : 0 < bs.length := List.length_pos_iff.mpr more
  simp only [beatLength, Config.beatMax_eq, Config.rateBytes_eq]
  omega

/-! ### The whole expansion (R79) -/

/-- A stream that begins with the beat of these bytes carries them first. -/
theorem messageOf_beatOf {c : Nat} {bs : List Byte} (some_byte : 1 ≤ bs.length) (short : bs.length ≤ 8)
    (fits : c + bs.length ≤ 136) (is : List Instr) :
    messageOf c (beatOf bs :: is) = (messageOf ((c + bs.length) % 136) is).map (bs ++ ·) := by
  have length := ofNat_length_toNat short
  have legal : legalBeat c (BitVec.ofNat 4 bs.length) = true := by
    simp [legalBeat, legalLen_iff, length, some_byte, short, fits]
  rw [beatOf, messageOf, if_pos legal, length, beatBytes_beatOf short]

/-- The expansion is a legal stream of well-formed beats with exactly the bytes. -/
theorem expandBeats_carries {fuel c : Nat} {bs : List Byte} (h : c < 136) (enough : bs.length ≤ fuel) :
    messageOf c (expandBeats fuel c bs ++ [.final]) = some bs ∧ ∀ i ∈ expandBeats fuel c bs, i.wellFormed = true := by
  induction fuel generalizing c bs with
  | zero =>
    rw [List.length_eq_zero_iff.mp (Nat.le_zero.mp enough)]
    simp [expandBeats, messageOf]
  | succ fuel ih =>
    by_cases empty : bs = []
    case pos =>
      subst empty
      simp [expandBeats, messageOf]
    case neg =>
      obtain ⟨some_byte, short, within, fits⟩ := beatLength_bounds h empty
      have taken : (bs.take (beatLength c bs)).length = beatLength c bs := List.length_take_of_le within
      have left : (bs.drop (beatLength c bs)).length ≤ fuel := by rw [List.length_drop]; omega
      obtain ⟨message, wellFormed⟩ := ih (Nat.mod_lt _ (by decide) : (c + beatLength c bs) % 136 < 136) left
      rw [expandBeats_succ empty]
      refine ⟨?message, List.forall_mem_cons.mpr ⟨beatOf_wellFormed (taken.trans_le short), wellFormed⟩⟩
      case message =>
        rw [List.cons_append, messageOf_beatOf (taken.symm ▸ some_byte) (taken.trans_le short) (taken.symm ▸ fits),
          taken, message, Option.map_some, List.take_append_drop]

/-- From an aligned fill position the beats are full ones, and at most one shorter one at the end. -/
theorem expandBeats_aligned {fuel c : Nat} {bs : List Byte} (h : c < 136) (aligned : c % 8 = 0)
    (enough : bs.length ≤ fuel) :
    (expandBeats fuel c bs).length = (bs.length + 7) / 8 ∧
      ∀ j, j < bs.length / 8 → ∃ data, (expandBeats fuel c bs)[j]? = some (.absorb 8#4 data) := by
  induction fuel generalizing c bs with
  | zero => simp [expandBeats, Nat.le_zero.mp enough]
  | succ fuel ih =>
    by_cases empty : bs = []
    case pos => simp [empty, expandBeats]
    case neg =>
      have positive : 0 < bs.length := List.length_pos_iff.mpr empty
      have next : beatLength c bs = min 8 bs.length := by
        simp only [beatLength, Config.beatMax_eq, Config.rateBytes_eq]
        omega
      rw [expandBeats_succ empty, next]
      rcases Nat.lt_or_ge bs.length 8 with short | full
      · rw [Nat.min_eq_right short.le, List.drop_length, expandBeats_nil]
        refine ⟨?_, fun j hj => absurd hj (by omega)⟩
        rw [List.length_singleton]
        omega
      · rw [Nat.min_eq_left full]
        have rest : (bs.drop 8).length = bs.length - 8 := List.length_drop
        obtain ⟨count, beats⟩ :=
          ih (c := (c + 8) % 136) (bs := bs.drop 8) (Nat.mod_lt _ (by decide)) (by omega) (by omega)
        refine ⟨by rw [List.length_cons, count, rest]; omega, fun j hj => ?_⟩
        cases j with
        | zero => exact ⟨_, by rw [List.getElem?_cons_zero, beatOf, List.length_take_of_le full]⟩
        | succ j => exact beats j (by omega)

/-- Settles O7: the expansion is `expandBeats` with a beat for every byte to spare; fill position 0 is aligned. -/
theorem absorbMsgExpandsIntoLegalBeats : Obligations.AbsorbMsgExpandsIntoLegalBeats := by
  refine ⟨fun c bytes h => ?legal, fun bytes => expandBeats_aligned (by decide) rfl le_rfl,
    fun c => expandBeats_nil 0 c, fun c => ⟨rfl, rfl, rfl⟩⟩
  case legal =>
    obtain ⟨message, wellFormed⟩ := expandBeats_carries h le_rfl
    exact ⟨message, wellFormed, rfl⟩

end Sys2Proof.Machine
end

section
/-! The closed-loop host (70_reset_and_hazards.md R204, R205, R210, R212): a wait ends in the settled state and takes
the edges the permutation has left (`HostRun.WaitsOut`); the commands of a program add up as those of a run do. -/

namespace Sys2Proof.Machine

/-! ### One edge and one wait -/

theorem State.observe_of_launched {α : Type} {s : State} (launched : s.launched = true) (f : State → α) :
    s.observe f = .ok (f s) := by
  simp [State.observe, launched]

/-- One edge that leads to `t`: the host counts it, and counts it busy if it is. -/
theorem HostRun.edge_of_next {h : HostRun} {p : PortInput} {t : State}
    (next : step (h.core.withInputs [p]) = .next t) :
    h.edge p = .ok { h with
      core := t, edges := h.edges + 1
      busy := h.busy + if (h.core.withInputs [p]).edgeAction = .busy then 1 else 0 } := by
  unfold State.withInputs at *
  simp only [HostRun.edge, next]

theorem HostRun.edge_of_busy {h : HostRun} {p : PortInput} (noRst : p.rst = false) (launched : h.core.launched = true)
    (busy : h.core.busy = true) :
    h.edge p = .ok { h with
      core := (h.core.withInputs []).busyStep, edges := h.edges + 1, busy := h.busy + 1 } := by
  have action : (h.core.withInputs [p]).edgeAction = .busy :=
    State.edgeAction_eq_busy_iff.mpr ⟨noRst, launched, busy⟩
  rw [HostRun.edge_of_next (step_of_busy noRst launched busy), if_pos action]
  rfl

/-- A command transfers at an edge of a ready core, which is not a busy edge. -/
theorem HostRun.edge_of_ready {h : HostRun} (launched : h.core.launched = true) (ready : h.core.busy = false)
    (w : CmdWord) :
    ∃ t, exec (decode w) h.core.settled = .next t ∧
      h.edge ⟨false, true, w⟩ = .ok { h with core := t, edges := h.edges + 1 } := by
  obtain ⟨t, next, -⟩ := exec_next (decode w) h.core.settled
  have command : step (h.core.withInputs [⟨false, true, w⟩]) = .next t := by
    have transfer := step_of_command (s := h.core.withInputs [⟨false, true, w⟩]) rfl launched ready rfl
    rw [transfer, ← next, State.settled_of_ready ready]
    rfl
  have action : (h.core.withInputs [⟨false, true, w⟩]).edgeAction ≠ .busy := fun isBusy => by
    obtain ⟨-, -, busy⟩ := State.edgeAction_eq_busy_iff.mp isBusy
    exact absurd (ready.symm.trans busy) (by decide)
  exact ⟨t, next, by rw [HostRun.edge_of_next command, if_neg action]; rfl⟩

/-- From `h` the host has waited until the permutation ended, and sampled nothing. -/
structure HostRun.WaitsOut (h h' : HostRun) : Prop where
  launched : h'.core.launched = true
  ready : h'.core.busy = false
  settled : h'.core.settled = h.core.settled
  edges : h'.edges = h.edges + h.core.roundsLeft
  busy : h'.busy = h.busy + h.core.roundsLeft
  samples : h'.samples = h.samples

/-- A wait for an output that no busy core and every core settled as this one shows. -/
theorem HostRun.holdUntil_waitsOut {output : State → Bool} {p : PortInput} (noRst : p.rst = false)
    (masked : ∀ s : State, s.busy = true → output s = false) {n : Nat} {h : HostRun}
    (launched : h.core.launched = true)
    (shown : ∀ s : State, s.busy = false → s.settled = h.core.settled → output s = true)
    (enough : h.core.roundsLeft ≤ n) : ∃ h', h.holdUntil output p n = .ok h' ∧ h.WaitsOut h' := by
  induction n generalizing h with
  | zero =>
    have ready : h.core.busy = false := by
      by_contra busy
      rw [State.roundsLeft_of_busy (by simpa using busy)] at enough
      omega
    refine ⟨h, ?_, launched, ready, rfl, ?_, ?_, rfl⟩
    · simp [HostRun.holdUntil, State.observe_of_launched launched, shown h.core ready rfl]
    · simp [ready]
    · simp [ready]
  | succ n ih =>
    cases busy : h.core.busy with
    | false =>
      refine ⟨h, ?_, launched, busy, rfl, ?_, ?_, rfl⟩
      · simp [HostRun.holdUntil, State.observe_of_launched launched, shown h.core busy rfl]
      · simp [busy]
      · simp [busy]
    | true =>
      have taken : (h.core.withInputs []).busy = true := busy
      have settled : (h.core.withInputs []).busyStep.settled = h.core.settled := State.settled_busyStep taken
      have rounds : (h.core.withInputs []).busyStep.roundsLeft + 1 = h.core.roundsLeft :=
        State.roundsLeft_busyStep taken
      obtain ⟨h', wait, waited⟩ := ih (h := { h with
        core := (h.core.withInputs []).busyStep, edges := h.edges + 1, busy := h.busy + 1 }) launched
        (fun s ready same => shown s ready (same.trans settled)) (by simp only; omega)
      refine ⟨h', ?_, waited.launched, waited.ready, waited.settled.trans settled, ?_, ?_, waited.samples⟩
      · simp only [HostRun.holdUntil, State.observe_of_launched launched, masked h.core busy,
          HostRun.edge_of_busy noRst launched busy, wait]
      · rw [waited.edges, ← rounds]; simp only; omega
      · rw [waited.busy, ← rounds]; simp only; omega

theorem State.roundsLeft_le (s : State) : s.roundsLeft ≤ 24 := by
  unfold State.roundsLeft
  split <;> omega

/-! ### One command (R204, R205) -/

/-- The host waits the permutation out, and the command then runs at the settled state. -/
theorem HostRun.issue_settled {h : HostRun} (launched : h.core.launched = true) (w : CmdWord) :
    ∃ h' : HostRun, h.issue w = .ok h' ∧ exec (decode w) h.core.settled = .next h'.core ∧
      h'.edges = h.edges + h.core.roundsLeft + 1 ∧ h'.busy = h.busy + h.core.roundsLeft ∧ h'.samples = h.samples := by
  obtain ⟨h₁, wait, waited⟩ := HostRun.holdUntil_waitsOut (output := State.cmdReady) (p := ⟨false, true, w⟩) (n := 24)
    rfl (fun s busy => by simp [State.cmdReady, busy]) launched
    (fun s ready _ => s.cmdReady_iff_not_busy.mpr ready) h.core.roundsLeft_le
  obtain ⟨t, next, edge⟩ := HostRun.edge_of_ready waited.launched waited.ready w
  rw [waited.settled] at next
  refine ⟨{ h₁ with core := t, edges := h₁.edges + 1 }, ?_, next, congrArg (· + 1) waited.edges, waited.busy,
    waited.samples⟩
  simp only [HostRun.issue, Config.nRounds_eq, wait, edge]

/-- Settles O55: `HostRun.issue_settled`, with the settled state of a ready and of a busy core written out. -/
theorem hostIssueWaitsOutThePermutation : Obligations.HostIssueWaitsOutThePermutation := by
  intro h w launched
  obtain ⟨h', issued, next, edges, busyCount, samples⟩ := HostRun.issue_settled launched w
  refine ⟨h', issued, samples, fun ready => ?ready, fun busy => ?busy⟩
  case ready =>
    rw [State.roundsLeft_of_ready ready] at edges busyCount
    rw [State.settled_of_ready ready] at next
    exact ⟨edges, busyCount, next⟩
  case busy =>
    have phase : h.core.PHASE.afterPermutation = if h.core.PHASE = .permBlk then .abs else .done := by
      rcases h.core.busy_iff.mp busy with phase | phase <;> rw [phase] <;> rfl
    rw [State.roundsLeft_of_busy busy] at edges busyCount
    rw [State.settled_of_busy busy, phase] at next
    exact ⟨edges, busyCount, next⟩

/-! ### Programs (R78, R212) -/

theorem HostRun.run_append {as bs : List HostAction} {h h' : HostRun} (first : HostRun.run as h = .ok h') :
    HostRun.run (as ++ bs) h = HostRun.run bs h' := by
  induction as generalizing h with
  | nil =>
    cases first
    rfl
  | cons a as ih =>
    rw [List.cons_append, HostRun.run]
    rw [HostRun.run] at first
    split at first
    next => exact ih first
    next => cases first

/-- Commands issued one after the other: they settle as they do in a run, and take one edge each besides the busy ones
that are over. -/
theorem HostRun.run_issueAll {is : List Instr} {h : HostRun} (launched : h.core.launched = true)
    (wellFormed : ∀ i ∈ is, i.wellFormed = true) :
    ∃ h', HostRun.run (issueAll is) h = .ok h' ∧ h'.core.launched = true ∧
      h'.core.settled = is.foldl State.after h.core.settled ∧ h'.samples = h.samples ∧
      h'.edges + h'.core.roundsLeft =
        h.edges + h.core.roundsLeft + is.length + roundsCausedBy h.core.settled is := by
  induction is generalizing h with
  | nil => exact ⟨h, rfl, launched, rfl, rfl, rfl⟩
  | cons i is ih =>
    obtain ⟨ofFirst, ofRest⟩ := List.forall_mem_cons.mp wellFormed
    obtain ⟨h₁, issued, next, edges, -, samples⟩ := HostRun.issue_settled launched (encode i)
    rw [decodeOfEncodeIsTheCommand i ofFirst] at next
    have launched₁ : h₁.core.launched = true := by
      obtain ⟨t, next', kept, -⟩ := exec_next i h.core.settled
      cases next.symm.trans next'
      exact kept.trans (h.core.settled_launched.trans launched)
    obtain ⟨h', rest, launched', settled, samples', edges'⟩ := ih launched₁ ofRest
    rw [← State.after_of_exec next] at settled edges'
    refine ⟨h', ?_, launched', settled, samples'.trans samples, ?_⟩
    · have acted : h.act (.issue (encode i)) = .ok h₁ := issued
      rw [issueAll, List.map_cons, HostRun.run, acted]
      exact rest
    · rw [roundsCausedBy, State.roundsCaused_of_exec next, List.length_cons]
      omega

/-- WAIT_DONE on a core whose permutation ends in DONE, or that is there already. -/
theorem HostRun.waitDone_waitsOut {h : HostRun} (launched : h.core.launched = true)
    (done : h.core.settled.PHASE = .done) : ∃ h', h.act .waitDone = .ok h' ∧ h.WaitsOut h' := by
  refine HostRun.holdUntil_waitsOut rfl (fun s busy => ?masked) launched (fun s ready same => ?shown)
    h.core.roundsLeft_le
  case masked => rcases s.busy_iff.mp busy with phase | phase <;> simp [State.dvalid, State.errFlag, phase]
  case shown =>
    have phase : s.PHASE = .done := by rwa [← same, State.settled_of_ready ready] at done
    simp [State.dvalid, phase]

theorem HostRun.readDigest_of_launched {h : HostRun} (launched : h.core.launched = true) :
    h.act .readDigest = .ok { h with samples := h.samples ++ [.digest h.core.digest] } := by
  simp [HostRun.act, HostRun.sample, State.observe_of_launched launched]

/-- The commands of HASH. -/
def hashCommands (M : List Byte) : List Instr := [.init] ++ expandMessage 0 M ++ [.final]

theorem hashCommands_wellFormed (M : List Byte) : ∀ i ∈ hashCommands M, i.wellFormed = true := by
  have beats := (expandBeats_carries (c := 0) (by decide) (le_refl M.length)).2
  simp only [hashCommands, List.mem_append, List.mem_singleton]
  rintro i ((rfl | beat) | rfl)
  · rfl
  · exact beats i beat
  · rfl

theorem hashCommands_length (M : List Byte) : (hashCommands M).length = 2 + (M.length + 7) / 8 := by
  have beats := (absorbMsgExpandsIntoLegalBeats.2.1 M).1
  simp only [hashCommands, List.length_append, List.length_singleton, beats]
  omega

/-- On any settled state of an accepting phase the commands of HASH end in DONE with the sponge's state. -/
theorem settled_of_hashCommands {s : State} (settled : s.settled = s) (M : List Byte) :
    ((hashCommands M).foldl State.after s).PHASE = .done ∧
      ((hashCommands M).foldl State.after s).S = spongeState M ∧
      roundsCausedBy s (hashCommands M) = 24 * (M.length / 136 + 1) := by
  have ready : s.busy = false := settled ▸ s.settled_busy
  have init := exec_init_of_ready (s.cmdReady_iff_not_busy.mpr ready)
  have held := s.clear_holds_nil
  have cleared : s.clear.settled = s.clear := State.settled_eq_self held.ready (settled ▸ s.settled_inputs)
  have message := (expandBeats_carries (c := 0) (by decide) (le_refl M.length)).1
  obtain ⟨phase, lanes, rounds⟩ := settled_of_messageOf held cleared message
  rw [hashCommands, List.append_assoc, List.singleton_append, List.foldl_cons, roundsCausedBy,
    State.after_of_exec init, State.roundsCaused_of_exec init, cleared, State.roundsLeft_of_ready held.ready]
  exact ⟨phase, lanes, by rw [Nat.zero_add]; exact rounds.trans (by simp)⟩

/-- Settles O56: the commands of HASH settle in DONE, WAIT_DONE waits for it, and READ_DIGEST samples the digest
there; the edges are those of the commands and of the permutations they cause. -/
theorem hashProgramComputesKeccak256InTime : Obligations.HashProgramComputesKeccak256InTime := by
  intro h c M launched accepting
  have ready : h.core.busy = false := h.core.cmdReady_iff_not_busy.mp accepting
  obtain ⟨phase, lanes, rounds⟩ := settled_of_hashCommands h.core.settled_settled M
  obtain ⟨h₁, issued, launched₁, settled, samples, edges⟩ := HostRun.run_issueAll launched (hashCommands_wellFormed M)
  rw [← settled] at phase lanes
  obtain ⟨h₂, wait, waited⟩ := HostRun.waitDone_waitsOut launched₁ phase
  have final := State.settled_of_ready waited.ready
  rw [waited.settled] at final
  rw [final] at phase lanes
  refine ⟨issueAll (hashCommands M) ++ [.waitDone, .readDigest],
    { h₂ with samples := h₂.samples ++ [.digest h₂.core.digest] }, h₂.core.digest, rfl, ?actions, ?run, phase, ?samples,
    digest_of_spongeState phase lanes, ?edges⟩
  case actions => simp [issueAll, hashCommands]
  case run =>
    rw [HostRun.run_append issued]
    simp only [HostRun.run, wait, HostRun.readDigest_of_launched waited.launched]
  case samples => rw [waited.samples, samples]
  case edges =>
    rw [State.roundsLeft_of_ready ready, hashCommands_length, rounds] at edges
    simp only [waited.edges, edges]
    omega

end Sys2Proof.Machine
end
